-- ==== Sys2Proof/Word.lean ====
section
/-! DEFINITION. The widths of SHA256-CORE: bytes, 32-bit words, hash states and blocks (00_scope.md R8, R10 to R12). -/

namespace Sys2Proof

/-- A byte, 8 bits unsigned (00_scope.md R12). -/
abbrev Byte := BitVec 8

/-- A 32-bit unsigned word: hash-state words, schedule words, commands and registers (00_scope.md R8, R11).
`+` on it is addition modulo 2^32. -/
abbrev Word := BitVec 32

/-- The HashState, eight words h[0..7] (10_state.md R21, R22). -/
abbrev HashState := Vector Word 8

/-- A 64-byte block (00_scope.md R8, R15); also the shape of InputBuffer and of the key block. -/
abbrev Block := Vector Byte 64

end Sys2Proof
end

