-- ==== Sys2Proof/Syntax.lean ====
section
/-! DEFINITION. The commands of SHA256-CORE, one constructor per row of spec/opcode_table.json (30_encoding.md R82), and the
fields of the command word (30_encoding.md R81). -/

namespace Sys2Proof

/-- A command (30_encoding.md R82). `ctx` selects H[0] or H[1] (R83); `imm8` is the data byte (R84). -/
inductive Instr where
  /-- INIT, op 0x1: start a fresh hash in context `ctx` (41_hasher.md R145). -/
  | init (ctx : Fin 2)
  /-- ADD, op 0x2: absorb one message byte into context `ctx` (41_hasher.md R146). -/
  | add (ctx : Fin 2) (imm8 : Byte)
  /-- FINAL, op 0x3: pad and finalize context `ctx` (41_hasher.md R147). -/
  | final (ctx : Fin 2)
  /-- KINIT, op 0x4: start a new key (42_hmac.md R172). -/
  | kinit
  /-- KADD, op 0x5: append one key byte (42_hmac.md R173). -/
  | kadd (imm8 : Byte)
  /-- HSTART, op 0x6: derive K0 and start the inner and outer hashes (42_hmac.md R174). -/
  | hstart
  /-- HFINAL, op 0x7: complete the HMAC (42_hmac.md R175). -/
  | hfinal
  deriving DecidableEq, Repr

/-- The five fields of a command word, most significant first (30_encoding.md R81). -/
structure CmdFields where
  /-- bits 31:28 -/
  op : BitVec 4
  /-- bits 27:25, reserved -/
  rsv1 : BitVec 3
  /-- bit 24 -/
  ctx : BitVec 1
  /-- bits 23:8, reserved -/
  rsv0 : BitVec 16
  /-- bits 7:0 -/
  imm8 : BitVec 8
  deriving DecidableEq, Repr

end Sys2Proof
end

