-- ==== Sys2Proof/WellFormed.lean ====
section
/-! DEFINITION. When the fields of a command word make a command: the static checks of 30_encoding.md R82, R85 and R86, one
definition each. `Decode.lean` decodes by the text of R89 and does not call these; an obligation states that the two agree.
A term of `Instr` needs no check of its own: its operands are typed at the width of their fields. -/

namespace Sys2Proof.CmdFields

/-- The operation is assigned: 0x1 to 0x7 (R82, R87). -/
def opAssigned (f : CmdFields) : Bool := decide (1 ≤ f.op.toNat ∧ f.op.toNat ≤ 7)

/-- Both reserved fields are zero (R85). -/
def reservedZero (f : CmdFields) : Bool := f.rsv1 == 0 && f.rsv0 == 0

/-- The operation uses `ctx`: INIT, ADD, FINAL (R82, R83). -/
def usesCtx (f : CmdFields) : Bool := f.op == 1 || f.op == 2 || f.op == 3

/-- The operation uses `imm8`: ADD, KADD (R82, R84). -/
def usesImm8 (f : CmdFields) : Bool := f.op == 2 || f.op == 5

/-- A field the operation does not use is zero (R86). -/
def unusedZero (f : CmdFields) : Bool := (f.usesCtx || f.ctx == 0) && (f.usesImm8 || f.imm8 == 0)

/-- The fields are those of exactly one command (R87, R88). -/
def wellFormed (f : CmdFields) : Bool := f.opAssigned && f.reservedZero && f.unusedZero

end Sys2Proof.CmdFields
end

