-- ==== Sys2Proof/Decode.lean ====
section
/-! DEFINITION. Decoding of command words (30_encoding.md R89), total on all 2^32 words, and the encoder written from the
assembler table (30_encoding.md R90). -/

namespace Sys2Proof

/-- Why a word is no command (30_encoding.md R85, R86, R87). The hardware has one code for all of them (ILLEGAL_CMD); the
reason names the check of R89 that refused the word. -/
inductive IllegalReason where
  /-- `rsv1` or `rsv0` is not zero (R85). -/
  | reservedBits
  /-- a field the operation does not use is not zero (R86). -/
  | unusedField
  /-- `op` is 0x0 or 0x8 to 0xF (R87). -/
  | unassignedOp
  deriving DecidableEq, Repr

/-- What a word decodes as: a command or `Illegal` (30_encoding.md R89). -/
inductive Decoded where
  | command (i : Instr)
  | illegal (r : IllegalReason)
  deriving DecidableEq, Repr

/-- `v[hi:lo]` of a command word, for each field of 30_encoding.md R81. -/
def splitFields (w : Word) : CmdFields where
  op := w.extractLsb' 28 4
  rsv1 := w.extractLsb' 25 3
  ctx := w.extractLsb' 24 1
  rsv0 := w.extractLsb' 8 16
  imm8 := w.extractLsb' 0 8

/-- The context number of a `ctx` bit: 0 = H[0], 1 = H[1] (30_encoding.md R83). -/
def ctxOfBit (b : BitVec 1) : Fin 2 := if b = 0 then 0 else 1

/-- `decode` of 30_encoding.md R89. -/
def decode (w : Word) : Decoded :=
  let f := splitFields w
  if f.rsv1 ≠ 0 ∨ f.rsv0 ≠ 0 then .illegal .reservedBits
  else match f.op.toNat with
    | 0x1 => if f.imm8 = 0 then .command (.init (ctxOfBit f.ctx)) else .illegal .unusedField
    | 0x2 => .command (.add (ctxOfBit f.ctx) f.imm8)
    | 0x3 => if f.imm8 = 0 then .command (.final (ctxOfBit f.ctx)) else .illegal .unusedField
    | 0x4 => if f.ctx = 0 ∧ f.imm8 = 0 then .command .kinit else .illegal .unusedField
    | 0x5 => if f.ctx = 0 then .command (.kadd f.imm8) else .illegal .unusedField
    | 0x6 => if f.ctx = 0 ∧ f.imm8 = 0 then .command .hstart else .illegal .unusedField
    | 0x7 => if f.ctx = 0 ∧ f.imm8 = 0 then .command .hfinal else .illegal .unusedField
    | _ => .illegal .unassignedOp

/-- `c << 24` of a context number (30_encoding.md R90). -/
def ctxField (c : Fin 2) : Word := BitVec.ofNat 32 c.val <<< 24

/-- The word of a command (30_encoding.md R90). -/
def encode : Instr → Word
  | .init c => 0x10000000 ||| ctxField c
  | .add c b => 0x20000000 ||| ctxField c ||| b.setWidth 32
  | .final c => 0x30000000 ||| ctxField c
  | .kinit => 0x40000000
  | .kadd b => 0x50000000 ||| b.setWidth 32
  | .hstart => 0x60000000
  | .hfinal => 0x70000000

/-- The instruction the decoder reads from the table's word `w` of `nbits` bits. A command word is a number written to CMD
(20_memory.md R59), so its bits are numbered as the table numbers them; bits above `nbits` are zero, and a word with a bit set
above bit 31 is no command word (30_encoding.md R80). -/
def decodeTableWord (nbits w : Nat) : Option Instr :=
  let v := w % 2 ^ nbits
  if v < 2 ^ 32 then
    match decode (BitVec.ofNat 32 v) with
    | .command i => some i
    | .illegal _ => none
  else none

end Sys2Proof
end

