-- ==== Sys2Proof/Config.lean ====
section
/-! DEFINITION. The implementation parameters of SHA256-CORE (00_scope.md R8, R9; 92_eei_decisions.md, Open parameters). -/

namespace Sys2Proof.Config

/-- `LEN_LIMIT`, the exclusive bound on TotalLength: 2^45 for this hardware (00_scope.md R9, decision D11).
A model may take any value from 2^45 to 2^61; see assumption 7. -/
def lenLimit : Nat := 2 ^ 45

/-- The register window is 256 bytes (20_memory.md R50). -/
def windowBytes : Nat := 256

/-- The HMAC inner pad byte (00_scope.md R8, 42_hmac.md R171). -/
def ipadByte : Byte := 0x36

/-- The HMAC outer pad byte (00_scope.md R8, 42_hmac.md R171). -/
def opadByte : Byte := 0x5c

end Sys2Proof.Config
end

