-- ==== Sys2Proof/Machine/Compression.lean ====
section
/-! DEFINITION. The compression engine and the message-schedule expander (40_compression.md). Every function is total on 32-bit
words and raises nothing; all additions are modulo 2^32. -/

namespace Sys2Proof.Machine

/-- `ROTR(x, n) = (x >> n) | (x << (32 - n))` for 1 ≤ n ≤ 31 (R101). -/
def rotr (x : Word) (n : Nat) : Word := (x >>> n) ||| (x <<< (32 - n))

/-- `SHR(x, n) = x >> n`, filling with zeros (R101). -/
def shr (x : Word) (n : Nat) : Word := x >>> n

/-- `σ0` (R102); the third term is a shift (90_conflicts.md C1). -/
def smallSigma0 (x : Word) : Word := rotr x 7 ^^^ rotr x 18 ^^^ shr x 3

/-- `σ1` (R103); the third term is a shift (90_conflicts.md C1). -/
def smallSigma1 (x : Word) : Word := rotr x 17 ^^^ rotr x 19 ^^^ shr x 10

/-- `Σ0` (R104). -/
def bigSigma0 (x : Word) : Word := rotr x 2 ^^^ rotr x 13 ^^^ rotr x 22

/-- `Σ1` (R105). -/
def bigSigma1 (x : Word) : Word := rotr x 6 ^^^ rotr x 11 ^^^ rotr x 25

/-- `Ch` (R106). -/
def ch (x y z : Word) : Word := (x &&& y) ^^^ (~~~x &&& z)

/-- `Maj` (R107). -/
def maj (x y z : Word) : Word := (x &&& y) ^^^ (x &&& z) ^^^ (y &&& z)

/-- Byte `i` of a block. -/
def blockByte (B : Block) (i : Nat) : Byte := B.toList.getD i 0

/-- Schedule step 1: `W[t] = BE32(B[4t], B[4t+1], B[4t+2], B[4t+3])` for t = 0..15 (R110). -/
def scheduleStart (B : Block) : List Word :=
  (List.range 16).map fun t =>
    be32 (blockByte B (4 * t)) (blockByte B (4 * t + 1)) (blockByte B (4 * t + 2)) (blockByte B (4 * t + 3))

/-- Schedule step 2, one word: `W[t] = σ1(W[t-2]) + W[t-7] + σ0(W[t-15]) + W[t-16]` (R111), appended to `W[0..t-1]`. -/
def scheduleNext (W : List Word) (t : Nat) : List Word :=
  W ++ [smallSigma1 (W.getD (t - 2) 0) + W.getD (t - 7) 0 + smallSigma0 (W.getD (t - 15) 0) + W.getD (t - 16) 0]

/-- The message schedule `W[0..63]` of a block (R110, R111). -/
def schedule (B : Block) : List Word := (List.range' 16 48).foldl scheduleNext (scheduleStart B)

/-- The working variables a..h (R113; 10_state.md R38): values inside one compression, not state. -/
structure WorkVars where
  a : Word
  b : Word
  c : Word
  d : Word
  e : Word
  f : Word
  g : Word
  h : Word
  deriving DecidableEq, Repr

/-- The working variables before round 0 (R113). -/
def WorkVars.start (S : HashState) : WorkVars := ⟨S[0], S[1], S[2], S[3], S[4], S[5], S[6], S[7]⟩

/-- Round `t` with schedule `W` (R112); the right-hand sides use the values before the round. -/
def compressRound (W : List Word) (v : WorkVars) (t : Nat) : WorkVars :=
  let T1 := v.h + bigSigma1 v.e + ch v.e v.f v.g + roundConstant t + W.getD t 0
  let T2 := bigSigma0 v.a + maj v.a v.b v.c
  ⟨T1 + T2, v.a, v.b, v.c, v.d + T1, v.e, v.f, v.g⟩

/-- The final addition `S'[i] = S[i] + v[i]` (R114). -/
def WorkVars.addTo (v : WorkVars) (S : HashState) : HashState :=
  #v[S[0] + v.a, S[1] + v.b, S[2] + v.c, S[3] + v.d, S[4] + v.e, S[5] + v.f, S[6] + v.g, S[7] + v.h]

/-- The compression function (R100, R115). -/
def compress (S : HashState) (B : Block) : HashState :=
  ((List.range 64).foldl (compressRound (schedule B)) (WorkVars.start S)).addTo S

end Sys2Proof.Machine
end

