-- ==== Sys2Proof/Machine/State.lean ====
section
/-! DEFINITION. The state of SHA256-CORE (10_state.md R20 to R30), the host's accesses waiting at its window, the reasons a step
can stop, and the state after reset (10_state.md R43). -/

namespace Sys2Proof.Machine

/-- The phase of a hasher context (10_state.md R26). -/
inductive Phase where
  | accumulating
  | finalized
  deriving DecidableEq, Repr

/-- The error codes of STATUS.ERR (60_exceptions.md R201). Codes 4 to 15 are never produced and have no constructor
(93_implementation_defined.md A12). -/
inductive ErrCode where
  /-- 0: no error, the core is running. -/
  | none
  /-- 1, ILLEGAL_CMD: the word is not a command (R202). -/
  | illegalCmd
  /-- 2, PRECOND: a context that must be Accumulating is Finalized (R203). -/
  | precond
  /-- 3, LENGTH: a TotalLength would reach LEN_LIMIT (R204). -/
  | length
  deriving DecidableEq, Repr

/-- A hasher context (10_state.md R21). `fill` is 0..63 between commands (R24), which its type says. -/
structure Context where
  /-- HashState (R22). -/
  h : HashState
  /-- InputBuffer (R23). -/
  buf : Block
  /-- Fill pointer, 6 bits (R24). -/
  fill : Fin 64
  /-- TotalLength, 64 bits (R25). -/
  len : BitVec 64
  phase : Phase
  deriving DecidableEq, Repr

/-- The width of a host access in bits (20_memory.md R52, R53). -/
inductive Width where
  | w8
  | w16
  | w32
  | w64
  deriving DecidableEq, Repr

/-- What the outside world does to the block: one register access at a window offset (20_memory.md R50 to R55), or the reset
event (70_reset_and_hazards.md R230). The value of a write is the 32-bit value of `RegWrite(off, v)`; accesses of another width
fault whatever they carry. See assumptions 1, 5 and 17. -/
inductive HostEvent where
  | read (width : Width) (off : BitVec 8)
  | write (width : Width) (off : BitVec 8) (v : Word)
  | reset
  deriving DecidableEq, Repr

/-- The state: the architectural state of 10_state.md R20 under the spec's names, and two fields of the model's own for the
host's side of the window (DESIGN CHOICE, safe, assumption 1). -/
structure State where
  /-- H[0], general context 0 and HMAC inner hasher (R27). -/
  H0 : Context
  /-- H[1], general context 1 and HMAC outer hasher (R27). -/
  H1 : Context
  /-- KH, the key hasher (R27). -/
  KH : Context
  /-- The key block KB[0..63] (R28). -/
  KB : Block
  /-- STATUS.ERR, half of the error latch (R30). -/
  err : ErrCode
  /-- ERRCMD, the other half (R30). -/
  errcmd : Word
  /-- The model's own: the host's accesses still to come, in program order (20_memory.md R61). -/
  pending : List HostEvent
  /-- The model's own: the values the host's reads have returned, oldest first (20_memory.md R52). -/
  replies : List Word
  deriving DecidableEq, Repr

/-- The reasons a step stops the model: the two model-only faults of 60_exceptions.md R210. -/
inductive Fault where
  /-- BadAccess (R211): raised by a host access of a width other than 32 bits, at an offset not a multiple of 4, at a reserved
  offset, by a write to a register other than CMD, or by a read of CMD. Safe: the run has no meaning from there on. -/
  | badAccess
  /-- ReadBeforeFinal (R212): raised by a read of DIGESTc[i] while the context is Accumulating. Safe: no value is given. -/
  | readBeforeFinal
  deriving DecidableEq, Repr

/-- The reasons a command has no meaning. No arm of `exec` uses one. -/
inductive Refusal where
  /-- The host's interface asks for it: a command without a meaning yet would be refused so, by `exec`. Safe. -/
  | notModelled (mnemonic : String)
  deriving DecidableEq, Repr

/-- A context after reset (10_state.md R43). The bytes of `buf` are unspecified there; they are zero here
(DESIGN CHOICE, unsafe, assumption 3). -/
def Context.reset : Context where
  h := initialVector
  buf := Vector.replicate 64 0
  fill := 0
  len := 0
  phase := .accumulating

/-- The state after reset (10_state.md R43, 70_reset_and_hazards.md R230). The bytes of KB are unspecified there; they are zero
here (DESIGN CHOICE, unsafe, assumption 3). The host has issued nothing yet. -/
def State.reset : State where
  H0 := Context.reset
  H1 := Context.reset
  KH := Context.reset
  KB := Vector.replicate 64 0
  err := .none
  errcmd := 0
  pending := []
  replies := []

end Sys2Proof.Machine
end

