-- ==== Sys2Proof/Machine/Operands.lean ====
section
/-! DEFINITION. The operands of a command name contexts (30_encoding.md R83): reading and replacing the context a name stands
for. -/

namespace Sys2Proof.Machine

/-- `H[ctx]` (30_encoding.md R83). -/
def State.H (s : State) (c : Fin 2) : Context := if c = 0 then s.H0 else s.H1

/-- Replace `H[ctx]`. -/
def State.setH (s : State) (c : Fin 2) (C : Context) : State := if c = 0 then { s with H0 := C } else { s with H1 := C }

/-- The three contexts by name, as the LEN and DIGEST registers name them (10_state.md R27, R33, R34). -/
inductive CtxName where
  | H0
  | H1
  | KH
  deriving DecidableEq, Repr

/-- The context of that name. -/
def State.ctx (s : State) : CtxName → Context
  | .H0 => s.H0
  | .H1 => s.H1
  | .KH => s.KH

end Sys2Proof.Machine
end

