-- ==== Sys2Proof/Machine/Flags.lean ====
section
/-! DEFINITION. The status bits and codes of SHA256-CORE: the phase bits, STATUS and FILL as the host reads them (10_state.md
R26, R29, R32), and the halted condition (60_exceptions.md R207). -/

namespace Sys2Proof.Machine

/-- The phase as a bit: Accumulating 0, Finalized 1 (10_state.md R21, R29). -/
def Phase.bit : Phase → BitVec 1
  | .accumulating => 0
  | .finalized => 1

/-- The 4-bit value of STATUS.ERR (60_exceptions.md R201). -/
def ErrCode.code : ErrCode → BitVec 4
  | .none => 0
  | .illegalCmd => 1
  | .precond => 2
  | .length => 3

/-- The core is halted: STATUS.ERR ≠ 0 (60_exceptions.md R207). -/
def State.halted (s : State) : Bool := s.err != .none

/-- STATUS: PH0, PH1, PHK in bits 0, 1, 2; ERR in bits 11:8; reserved bits read as 0 (10_state.md R29). -/
def State.statusWord (s : State) : Word :=
  s.H0.phase.bit.setWidth 32 ||| (s.H1.phase.bit.setWidth 32 <<< 1) ||| (s.KH.phase.bit.setWidth 32 <<< 2) |||
    (s.err.code.setWidth 32 <<< 8)

/-- FILL: H[0].fill in bits 5:0, H[1].fill in bits 13:8, KH.fill in bits 21:16; reserved bits read as 0 (10_state.md R32). -/
def State.fillWord (s : State) : Word :=
  BitVec.ofNat 32 s.H0.fill.val ||| (BitVec.ofNat 32 s.H1.fill.val <<< 8) ||| (BitVec.ofNat 32 s.KH.fill.val <<< 16)

/-- The low half of a length register pair (10_state.md R33). -/
def Context.lenLo (C : Context) : Word := C.len.extractLsb' 0 32

/-- The high half of a length register pair (10_state.md R33). -/
def Context.lenHi (C : Context) : Word := C.len.extractLsb' 32 32

end Sys2Proof.Machine
end

