-- ==== Sys2Proof/Machine/Ops.lean ====
section
/-! DEFINITION. The shared operations of the commands: PutByte, Absorb, Finalize, DigestBytes (41_hasher.md R141 to R144), making
a context fresh (R145), the error checks and error entry (60_exceptions.md R203 to R206), and reset, the only way out of the
halted state (60_exceptions.md R208). -/

namespace Sys2Proof.Machine

/-- The outcome of a command or a step. -/
abbrev Result := Host.Outcome State Fault Refusal

/-- PutByte (41_hasher.md R141): place one byte, compress a full block. `len` does not change. -/
def putByte (C : Context) (b : Byte) : Context :=
  let buf := C.buf.set C.fill.val b C.fill.isLt
  if room : C.fill.val + 1 < 64 then { C with buf := buf, fill := ⟨C.fill.val + 1, room⟩ }
  else { C with h := compress C.h buf, buf := buf, fill := 0 }

/-- PutByte for each byte in order. -/
def putBytes (C : Context) (bs : List Byte) : Context := bs.foldl putByte C

/-- Absorb (41_hasher.md R142): feed one message byte and count it. -/
def absorb (C : Context) (b : Byte) : Context := { putByte C b with len := C.len + 1 }

/-- Absorb for each byte in order. -/
def absorbBytes (C : Context) (bs : List Byte) : Context := bs.foldl absorb C

/-- The effect of INIT on a context (41_hasher.md R145): `buf` is not written. -/
def freshen (C : Context) : Context := { C with h := initialVector, fill := 0, len := 0, phase := .accumulating }

/-- `while p(C): PutByte(C, 0x00)`, for at most `fuel` bytes (the loops of 41_hasher.md R143; DEDUCED, safe, assumption 19). -/
def zeroFillWhile (p : Context → Bool) : Nat → Context → Context
  | 0, C => C
  | fuel + 1, C => if p C then zeroFillWhile p fuel (putByte C 0x00) else C

/-- The length suffix `BE64bytes(len * 8)` (41_hasher.md R143, R148), 64-bit arithmetic (DESIGN CHOICE, safe, assumption 8). -/
def lengthSuffix (len : BitVec 64) : List Byte := be64Bytes (len * 8)

/-- Finalize, the padding controller (41_hasher.md R143), line by line. -/
def finalize (C : Context) : Context :=
  let C1 := putByte C 0x80
  let C2 := if 64 - C1.fill.val < 8 then zeroFillWhile (fun D => D.fill != 0) 64 C1 else C1
  let C3 := zeroFillWhile (fun D => decide (D.fill.val < 56)) 64 C2
  let C4 := putBytes C3 (lengthSuffix C.len)
  { C4 with phase := .finalized }

/-- DigestBytes (41_hasher.md R144): the eight words, each most significant byte first. -/
def digestBytes (h : HashState) : List Byte := h.toList.flatMap wordBytes

/-- The precondition of a command fails: a context it needs Accumulating is Finalized (60_exceptions.md R203). -/
def isFinalized (C : Context) : Bool := C.phase == .finalized

/-- Absorbing `n` bytes would bring TotalLength to the limit: `len + n ≥ LEN_LIMIT` (60_exceptions.md R204), compared as
numbers, so the sum does not wrap. -/
def reachesLimit (limit : Nat) (C : Context) (n : Nat) : Bool := decide (limit ≤ C.len.toNat + n)

/-- Error entry (60_exceptions.md R206): the code and the command word are latched, and nothing else changes. -/
def raiseError (code : ErrCode) (w : Word) (s : State) : Result := .next { s with err := code, errcmd := w }

/-- A command's checks in order, before its first write (60_exceptions.md R205): PRECOND, then LENGTH, then the effect `s'`. -/
def checked (precond length : Bool) (w : Word) (s s' : State) : Result :=
  if precond then raiseError .precond w s
  else if length then raiseError .length w s
  else .next s'

/-- Reset (70_reset_and_hazards.md R230): every piece of the block's state takes its value of 10_state.md R43. It leaves the
halted state (60_exceptions.md R208). The host's own side is not the block's and stays. -/
def resetBlock (s : State) : State := { State.reset with pending := s.pending, replies := s.replies }

end Sys2Proof.Machine
end

