-- ==== Sys2Proof/Machine/Hasher.lean ====
section
/-! DEFINITION. The incremental hasher's commands INIT, ADD and FINAL (41_hasher.md R145 to R147). A command raising an error
reports its own word, `encode` of it (DEDUCED, safe, assumption 6). -/

namespace Sys2Proof.Machine

/-- INIT (41_hasher.md R145): legal in both phases, raises nothing. -/
def execInit (c : Fin 2) (s : State) : Result := .next (s.setH c (freshen (s.H c)))

/-- ADD (41_hasher.md R146). -/
def execAdd (c : Fin 2) (b : Byte) (s : State) : Result :=
  checked (isFinalized (s.H c)) (reachesLimit Config.lenLimit (s.H c) 1) (encode (.add c b)) s
    (s.setH c (absorb (s.H c) b))

/-- FINAL (41_hasher.md R147): never raises LENGTH. -/
def execFinal (c : Fin 2) (s : State) : Result :=
  checked (isFinalized (s.H c)) false (encode (.final c)) s (s.setH c (finalize (s.H c)))

end Sys2Proof.Machine
end

