-- ==== Sys2Proof/Machine/Hmac.lean ====
section
/-! DEFINITION. The HMAC composition's commands KINIT, KADD, HSTART and HFINAL (42_hmac.md R172 to R177). -/

namespace Sys2Proof.Machine

/-- KINIT (42_hmac.md R172): KB is not written. -/
def execKinit (s : State) : Result := .next { s with KH := freshen s.KH }

/-- `if KH.len < 64: KB[KH.len] <- b` (42_hmac.md R173). -/
def storeKeyByte (KB : Block) (len : BitVec 64) (b : Byte) : Block :=
  if room : len.toNat < 64 then KB.set len.toNat b room else KB

/-- KADD (42_hmac.md R173). -/
def execKadd (b : Byte) (s : State) : Result :=
  checked (isFinalized s.KH) (reachesLimit Config.lenLimit s.KH 1) (encode (.kadd b)) s
    { s with KB := storeKeyByte s.KB s.KH.len b, KH := absorb s.KH b }

/-- The part of DeriveK0 (42_hmac.md R176) that writes KH: a key longer than 64 bytes still Accumulating is finalized. -/
def settleKey (KH : Context) : Context :=
  if 64 < KH.len.toNat ∧ KH.phase = .accumulating then finalize KH else KH

/-- The K0 of DeriveK0 (42_hmac.md R176), from KH after `settleKey` and from KB: 64 bytes. -/
def keyBlockK0 (KH : Context) (KB : Block) : List Byte :=
  if 64 < KH.len.toNat then digestBytes KH.h ++ List.replicate 32 0x00
  else KB.toList.take KH.len.toNat ++ List.replicate (64 - KH.len.toNat) 0x00

/-- The pad bytes `K0[i] ^ pad` (42_hmac.md R177). -/
def padBytes (pad : Byte) (K0 : List Byte) : List Byte := K0.map (· ^^^ pad)

/-- HSTART (42_hmac.md R174): raises nothing. -/
def execHstart (s : State) : Result :=
  let KH := settleKey s.KH
  let K0 := keyBlockK0 KH s.KB
  .next { s with
    KH := KH
    H0 := absorbBytes (freshen s.H0) (padBytes Config.ipadByte K0)
    H1 := absorbBytes (freshen s.H1) (padBytes Config.opadByte K0) }

/-- HFINAL (42_hmac.md R175). -/
def execHfinal (s : State) : Result :=
  let H0 := finalize s.H0
  checked (isFinalized s.H0 || isFinalized s.H1) (reachesLimit Config.lenLimit s.H1 32) (encode .hfinal) s
    { s with H0 := H0, H1 := finalize (absorbBytes s.H1 (digestBytes H0.h)) }

end Sys2Proof.Machine
end

