-- ==== Sys2Proof/Machine/Dispatch.lean ====
section
/-! DEFINITION. The meaning of each command, one arm per constructor of `Instr` (30_encoding.md R82). -/

namespace Sys2Proof.Machine

def exec (i : Instr) (s : State) : Host.Outcome State Fault Refusal :=
  match i with
  | .init c => Sys2Proof.Machine.execInit c s
  | .add c b => Sys2Proof.Machine.execAdd c b s
  | .final c => Sys2Proof.Machine.execFinal c s
  | .kinit => Sys2Proof.Machine.execKinit s
  | .kadd b => Sys2Proof.Machine.execKadd b s
  | .hstart => Sys2Proof.Machine.execHstart s
  | .hfinal => Sys2Proof.Machine.execHfinal s

end Sys2Proof.Machine
end

