-- ==== Sys2Proof/Machine/Bus.lean ====
section
/-! DEFINITION. The register window: the register map, what a read returns, the CMD write, and what each host event does to the
block (20_memory.md R50 to R57; 30_encoding.md R89; 60_exceptions.md R207, R211, R212). -/

namespace Sys2Proof.Machine

/-- The registers of 20_memory.md R51. -/
inductive Reg where
  | cmd
  | status
  | fill
  | errcmd
  | lenLo (c : CtxName)
  | lenHi (c : CtxName)
  | digest (c : CtxName) (i : Fin 8)
  deriving DecidableEq, Repr

/-- The register at a window offset; `none` for reserved offsets and for offsets that are not a multiple of 4 (20_memory.md R51,
R53, R54). -/
def regAt (off : BitVec 8) : Option Reg :=
  match off.toNat with
  | 0x00 => some .cmd
  | 0x04 => some .status
  | 0x08 => some .fill
  | 0x0C => some .errcmd
  | 0x10 => some (.lenLo .H0)
  | 0x14 => some (.lenHi .H0)
  | 0x18 => some (.lenLo .H1)
  | 0x1C => some (.lenHi .H1)
  | 0x20 => some (.lenLo .KH)
  | 0x24 => some (.lenHi .KH)
  | n =>
    if n % 4 ≠ 0 then none
    else
      let i := Fin.ofNat 8 (n / 4)
      if 0x40 ≤ n ∧ n ≤ 0x5C then some (.digest .H0 i)
      else if 0x60 ≤ n ∧ n ≤ 0x7C then some (.digest .H1 i)
      else if 0x80 ≤ n ∧ n ≤ 0x9C then some (.digest .KH i)
      else none

/-- The window offset of a host address, for a window at `base` (`CORE_BASE`, OPEN; 20_memory.md R50, assumption 5). An address
outside the window does not reach the block. -/
def windowOffset (base addr : Nat) : Option (BitVec 8) :=
  if base ≤ addr ∧ addr < base + Config.windowBytes then some (BitVec.ofNat 8 (addr - base)) else none

/-- `RegRead` of a register: its value, or why the read has none (10_state.md R29 to R35; 60_exceptions.md R211, R212). -/
def readReg (s : State) : Reg → Except Fault Word
  | .cmd => .error .badAccess
  | .status => .ok s.statusWord
  | .fill => .ok s.fillWord
  | .errcmd => .ok s.errcmd
  | .lenLo c => .ok (s.ctx c).lenLo
  | .lenHi c => .ok (s.ctx c).lenHi
  | .digest c i => if isFinalized (s.ctx c) then .ok (s.ctx c).h[i] else .error .readBeforeFinal

/-- `RegWrite(0x000, w)` (30_encoding.md R89): ignored while halted, else decoded and executed. -/
def cmdWrite (w : Word) (s : State) : Result :=
  if s.halted then .next s
  else match decode w with
    | .illegal _ => raiseError .illegalCmd w s
    | .command i => exec i s

/-- A host read: only 32-bit reads of readable registers are admitted (20_memory.md R52 to R55). A read changes nothing in the
block (R56); its value goes to the host. -/
def hostRead (width : Width) (off : BitVec 8) (s : State) : Result :=
  if width = .w32 then
    match regAt off with
    | none => .fault .badAccess
    | some r =>
      match readReg s r with
      | .ok v => .next { s with replies := s.replies ++ [v] }
      | .error f => .fault f
  else .fault .badAccess

/-- A host write: only a 32-bit write to CMD is admitted (20_memory.md R52 to R55). -/
def hostWrite (width : Width) (off : BitVec 8) (v : Word) (s : State) : Result :=
  if width = .w32 ∧ regAt off = some .cmd then cmdWrite v s else .fault .badAccess

/-- One host event. -/
def hostEvent (e : HostEvent) (s : State) : Result :=
  match e with
  | .read width off => hostRead width off s
  | .write width off v => hostWrite width off v s
  | .reset => .next (resetBlock s)

/-- The next step of the block: the host's next event, taken from the head of the list (20_memory.md R61); with none pending the
block is idle and holds its state (60_exceptions.md R220; DESIGN CHOICE, safe, assumption 2). -/
def nextEvent (s : State) : Result :=
  match s.pending with
  | [] => .next s
  | e :: rest => hostEvent e { s with pending := rest }

/-- `RegWrite(CMD, w)` as a host event. -/
def writeCmd (w : Word) : HostEvent := .write .w32 0x00 w

end Sys2Proof.Machine
end

