-- ==== Sys2Proof/Machine/Step.lean ====
section
/-! DEFINITION. One step of the machine, and the state in which a given command word is the next the core executes. -/

namespace Sys2Proof.Machine

/-- One step: the host's next access is performed whole (20_memory.md R57, R61). -/
def step (s : State) : Host.Outcome State Fault Refusal := nextEvent s

/-- `s` with the command word `w` as the host's next CMD write. The core fetches nothing (10_state.md R40), so this is the whole
of what placing a command takes (DESIGN CHOICE, safe, assumption 14). -/
def State.withFetchWord (s : State) (nbits w : Nat) : State :=
  { s with pending := writeCmd (BitVec.ofNat 32 (w % 2 ^ nbits)) :: s.pending }

end Sys2Proof.Machine
end

