-- ==== Sys2Proof/Machine/Assembler.lean ====
section
/-! DEFINITION. The assembler of 30_encoding.md R90 and R91: the text of a command, and the pseudo-instructions as command
sequences. Text is encoded as UTF-8 (R91). Spaces around operands are free and a string literal holds no quote (DESIGN
CHOICE, safe, assumption 18). -/

namespace Sys2Proof.Machine

/-- The mnemonic of a command (R90). -/
def mnemonic : Instr → String
  | .init _ => "INIT"
  | .add _ _ => "ADD"
  | .final _ => "FINAL"
  | .kinit => "KINIT"
  | .kadd _ => "KADD"
  | .hstart => "HSTART"
  | .hfinal => "HFINAL"

/-- The decimal digits of a number below 1000. -/
def decimalChars (n : Nat) : List Char :=
  let digit (d : Nat) : Char := Char.ofNat (48 + d)
  if n < 10 then [digit n]
  else if n < 100 then [digit (n / 10), digit (n % 10)]
  else [digit (n / 100), digit (n / 10 % 10), digit (n % 10)]

/-- The operands of a command as text, in decimal (R90). -/
def operandChars : Instr → List Char
  | .init c => ' ' :: decimalChars c.val
  | .add c b => ' ' :: decimalChars c.val ++ [',', ' '] ++ decimalChars b.toNat
  | .final c => ' ' :: decimalChars c.val
  | .kinit => []
  | .kadd b => ' ' :: decimalChars b.toNat
  | .hstart => []
  | .hfinal => []

/-- The text of a command (R90). -/
def commandChars (i : Instr) : List Char := (mnemonic i).toList ++ operandChars i

/-- The value of a digit in a base of at most 16. -/
def digitValue (base : Nat) (c : Char) : Option Nat :=
  let n := c.toNat
  let v := if 48 ≤ n ∧ n ≤ 57 then n - 48 else if 97 ≤ n ∧ n ≤ 102 then n - 87 else if 65 ≤ n ∧ n ≤ 70 then n - 55 else 16
  if v < base then some v else none

/-- The value of a non-empty digit string. -/
def parseDigits (base : Nat) : List Char → Option Nat
  | [] => none
  | cs => cs.foldl (fun acc c => acc.bind fun a => (digitValue base c).map fun d => a * base + d) (some 0)

/-- Drop spaces at both ends. -/
def trimChars (cs : List Char) : List Char := ((cs.dropWhile (· == ' ')).reverse.dropWhile (· == ' ')).reverse

/-- A number in decimal or `0x` hexadecimal, or a printable ASCII character literal, meaning its code (R90). -/
def parseNumber (cs : List Char) : Option Nat :=
  match trimChars cs with
  | ['\'', c, '\''] => if 32 ≤ c.toNat ∧ c.toNat ≤ 126 then some c.toNat else none
  | '0' :: 'x' :: ds => parseDigits 16 ds
  | ds => parseDigits 10 ds

/-- An `imm8` operand, 0..255 (R90). -/
def parseImm8 (cs : List Char) : Option Byte :=
  (parseNumber cs).bind fun n => if n < 256 then some (BitVec.ofNat 8 n) else none

/-- A `ctx` operand, written 0 or 1 (R90). -/
def parseCtx (cs : List Char) : Option (Fin 2) :=
  match trimChars cs with
  | ['0'] => some 0
  | ['1'] => some 1
  | _ => none

/-- The mnemonic and the operand text of a line. -/
def splitMnemonic (line : List Char) : List Char × List Char := (trimChars line).span (· != ' ')

/-- The text before the first comma and the text after it. -/
def splitComma (cs : List Char) : Option (List Char × List Char) :=
  match cs.span (· != ',') with
  | (before, ',' :: after) => some (before, after)
  | _ => none

/-- One command from its text (R90). -/
def assembleCommand (line : List Char) : Option Instr :=
  let (m, ops) := splitMnemonic line
  if m = ['I', 'N', 'I', 'T'] then (parseCtx ops).map .init
  else if m = ['A', 'D', 'D'] then
    (splitComma ops).bind fun (c, b) => (parseCtx c).bind fun c => (parseImm8 b).map fun b => .add c b
  else if m = ['F', 'I', 'N', 'A', 'L'] then (parseCtx ops).map .final
  else if m = ['K', 'I', 'N', 'I', 'T'] then if trimChars ops = [] then some .kinit else none
  else if m = ['K', 'A', 'D', 'D'] then (parseImm8 ops).map .kadd
  else if m = ['H', 'S', 'T', 'A', 'R', 'T'] then if trimChars ops = [] then some .hstart else none
  else if m = ['H', 'F', 'I', 'N', 'A', 'L'] then if trimChars ops = [] then some .hfinal else none
  else none

/-- The UTF-8 bytes of a text (R91). -/
def utf8Bytes (cs : List Char) : List Byte := cs.flatMap fun c => (String.utf8EncodeChar c).map (·.toBitVec)

/-- The pseudo-instructions (R91), with their byte strings. -/
inductive Pseudo where
  | adds (ctx : Fin 2) (bytes : List Byte)
  | kadds (bytes : List Byte)
  | sha (ctx : Fin 2) (bytes : List Byte)
  | hmac (key message : List Byte)
  deriving DecidableEq, Repr

/-- The commands of `ADDS c, bytes`. -/
def addCommands (c : Fin 2) (bs : List Byte) : List Instr := bs.map (.add c)

/-- The commands of `SHA c, bytes` (R91, 41_hasher.md R154). -/
def shaCommands (c : Fin 2) (bs : List Byte) : List Instr := .init c :: (addCommands c bs ++ [.final c])

/-- The commands of `HMAC key, message` (R91, 42_hmac.md R182). -/
def hmacCommands (k m : List Byte) : List Instr :=
  .kinit :: (k.map .kadd ++ .hstart :: (addCommands 0 m ++ [.hfinal]))

/-- The expansion of a pseudo-instruction, commands in order (R91). -/
def Pseudo.expand : Pseudo → List Instr
  | .adds c bs => addCommands c bs
  | .kadds bs => bs.map .kadd
  | .sha c bs => shaCommands c bs
  | .hmac k m => hmacCommands k m

/-- The items of a byte list up to its closing bracket, and the text after it (R91). A character literal is taken whole, so a
comma or a bracket inside one ends nothing (R90). `cur` is the part of the first item already read. -/
def listItems (cur : List Char) : List Char → Option (List (List Char) × List Char)
  | '\'' :: c :: '\'' :: rest => listItems (cur ++ ['\'', c, '\'']) rest
  | ',' :: rest => (listItems [] rest).map fun (items, after) => (cur :: items, after)
  | ']' :: rest => some ([cur], rest)
  | c :: rest => listItems (cur ++ [c]) rest
  | [] => none

/-- The byte and the count of an item `b x n`; `none` for an item without a count. A character literal is taken whole. -/
def splitTimes (cur : List Char) : List Char → Option (List Char × List Char)
  | '\'' :: c :: '\'' :: rest => splitTimes (cur ++ ['\'', c, '\'']) rest
  | ' ' :: 'x' :: ' ' :: rest => some (cur, rest)
  | c :: rest => splitTimes (cur ++ [c]) rest
  | [] => none

/-- The bytes of one item of a byte list: an `imm8` number or character literal (R90, R91), or `b x n`, which is n bytes b
(DEDUCED from the example `HMAC [0x0b x 20], "Hi There"` of 42_hmac.md R175; safe, assumption 23). -/
def parseItem (cs : List Char) : Option (List Byte) :=
  match splitTimes [] cs with
  | some (b, n) => (parseImm8 b).bind fun b => (parseDigits 10 (trimChars n)).map fun k => List.replicate k b
  | none => (parseImm8 cs).map fun b => [b]

/-- The bytes of the items of a byte list, in order. The empty list `[]` is no bytes (DESIGN CHOICE, safe, assumption 22). -/
def parseItems (items : List (List Char)) : Option (List Byte) :=
  if items.map trimChars = [[]] then some []
  else items.foldr (fun e acc => acc.bind fun bs => (parseItem e).map fun b => b ++ bs) (some [])

/-- A byte-string operand at the head of a text, a string literal or a bracketed list, and the text after it (R91). -/
def parseBytes (cs : List Char) : Option (List Byte × List Char) :=
  match cs.dropWhile (· == ' ') with
  | '"' :: rest =>
    match rest.span (· != '"') with
    | (text, _ :: after) => some (utf8Bytes text, after)
    | _ => none
  | '[' :: rest => (listItems [] rest).bind fun (items, after) => (parseItems items).map fun bs => (bs, after)
  | _ => none

/-- A byte-string operand that is the whole text. -/
def parseAllBytes (cs : List Char) : Option (List Byte) :=
  (parseBytes cs).bind fun (bs, after) => if trimChars after = [] then some bs else none

/-- One pseudo-instruction from its text (R91). R91 writes SHA and the operands of HMAC with strings only; here every byte-string
operand may also be a bracketed list, as R91 allows for ADDS and KADDS (DESIGN CHOICE, safe, assumption 22). -/
def assemblePseudo (line : List Char) : Option Pseudo :=
  let (m, ops) := splitMnemonic line
  let ctxAndBytes := (splitComma ops).bind fun (c, b) => (parseCtx c).bind fun c => (parseAllBytes b).map fun bs => (c, bs)
  if m = ['A', 'D', 'D', 'S'] then ctxAndBytes.map fun (c, bs) => .adds c bs
  else if m = ['K', 'A', 'D', 'D', 'S'] then (parseAllBytes ops).map .kadds
  else if m = ['S', 'H', 'A'] then ctxAndBytes.map fun (c, bs) => .sha c bs
  else if m = ['H', 'M', 'A', 'C'] then
    (parseBytes ops).bind fun (k, after) =>
      match after.dropWhile (· == ' ') with
      | ',' :: rest => (parseAllBytes rest).map fun msg => .hmac k msg
      | _ => none
  else none

/-- The host events of a line of assembler text: the CMD writes of its commands in order (R90, R91). -/
def assembleLine (line : String) : Option (List HostEvent) :=
  match assembleCommand line.toList with
  | some i => some [writeCmd (encode i)]
  | none => (assemblePseudo line.toList).map fun p => p.expand.map fun i => writeCmd (encode i)

/-- The CMD writes of a command sequence, in order. -/
def commandWrites (is : List Instr) : List HostEvent := is.map fun i => writeCmd (encode i)

end Sys2Proof.Machine
end

