-- ==== Sys2Proof/Machine/Reference.lean ====
section
/-! DEFINITION. SHA-256 and HMAC-SHA-256 as functions of byte sequences, as the spec's closed forms give them (41_hasher.md R149,
R150, R154; 42_hmac.md R171). The machine does not call these: statements compare the machine with them. -/

namespace Sys2Proof.Machine

/-- The first 64 bytes of a byte sequence as a block (missing bytes are zero; the uses give at least 64). -/
def blockOf (bs : List Byte) : Block := Vector.ofFn fun i => bs.getD i.val 0

/-- `compress` over the first `n` blocks of a byte sequence, first block first. -/
def compressBlocks : Nat → HashState → List Byte → HashState
  | 0, h, _ => h
  | n + 1, h, bs => compressBlocks n (compress h (blockOf bs)) (bs.drop 64)

/-- `k = (55 - n) mod 64`, the number of zero bytes in the padding of an n-byte message (41_hasher.md R150). -/
def padZeros (n : Nat) : Nat := (119 - n % 64) % 64

/-- The padding of an n-byte message: `0x80 || 0^k || BE64bytes(8n)` (41_hasher.md R150). -/
def padding (n : Nat) : List Byte := 0x80 :: (List.replicate (padZeros n) 0x00 ++ be64Bytes (BitVec.ofNat 64 (8 * n)))

/-- SHA-256 of a message: `compress` from IV over the padded message (41_hasher.md R150, R154). -/
def sha256 (m : List Byte) : HashState :=
  compressBlocks ((m.length + 8) / 64 + 1) initialVector (m ++ padding m.length)

/-- The K0 of a key (42_hmac.md R171). -/
def hmacK0 (k : List Byte) : List Byte :=
  if 64 < k.length then digestBytes (sha256 k) ++ List.replicate 32 0x00
  else k ++ List.replicate (64 - k.length) 0x00

/-- The inner hash `SHA256((K0 ^ ipad) || m)` (42_hmac.md R171, R178). -/
def hmacInner (k m : List Byte) : HashState := sha256 ((hmacK0 k).map (· ^^^ Config.ipadByte) ++ m)

/-- `HMAC(k, m) = SHA256((K0 ^ opad) || SHA256((K0 ^ ipad) || m))` (42_hmac.md R171). -/
def hmacSha256 (k m : List Byte) : HashState :=
  sha256 ((hmacK0 k).map (· ^^^ Config.opadByte) ++ digestBytes (hmacInner k m))

end Sys2Proof.Machine
end

