-- ==== Sys2Proof/Safety.lean ====
section
/-! DEFINITION. What claims are stated in terms of: the invariants of 10_state.md R41, which host events are admitted
(20_memory.md R52 to R55; 60_exceptions.md R212), agreement of two states up to stale bytes (10_state.md R23, R28, R42), and runs
of command sequences. -/

namespace Sys2Proof.Machine

/-- The invariants of a context between commands (10_state.md R41, items 2 to 4; item 1 is the type of `fill`). -/
structure Context.Inv (C : Context) : Prop where
  /-- item 2 -/
  accumulating : C.phase = .accumulating → C.fill.val = C.len.toNat % 64
  /-- item 3 -/
  finalized : C.phase = .finalized → C.fill.val = 0
  /-- item 4 -/
  bounded : C.len.toNat < Config.lenLimit

/-- The invariant of the machine between host events: 10_state.md R41 for each context; ERRCMD reads 0 while ERR = 0 (R30); KH is
Finalized only for a key longer than 64 bytes (42_hmac.md R176). -/
structure State.Inv (s : State) : Prop where
  h0 : s.H0.Inv
  h1 : s.H1.Inv
  kh : s.KH.Inv
  latch : s.err = .none → s.errcmd = 0
  key : s.KH.phase = .finalized → 64 < s.KH.len.toNat

/-- The access is one that 20_memory.md R52 admits for a read: 32 bits wide, at a multiple of 4, not at a reserved offset (R54),
and not of CMD (R55). -/
def readAdmitted (width : Width) (off : BitVec 8) : Prop :=
  width = .w32 ∧ off.toNat % 4 = 0 ∧ (0x04 ≤ off.toNat ∧ off.toNat ≤ 0x24 ∨ 0x40 ≤ off.toNat ∧ off.toNat ≤ 0x9C)

/-- The access is one that 20_memory.md R52 and R55 admit for a write: 32 bits wide, to CMD. -/
def writeAdmitted (width : Width) (off : BitVec 8) : Prop := width = .w32 ∧ off.toNat = 0

/-- The context whose digest registers hold the offset, for an offset of 0x040 to 0x09C (20_memory.md R51). -/
def digestOwner (off : BitVec 8) : CtxName :=
  if off.toNat < 0x60 then .H0 else if off.toNat < 0x80 then .H1 else .KH

/-- A read that has a value in `s`: admitted, and not of a digest register of an Accumulating context (60_exceptions.md R212). -/
def readable (s : State) (width : Width) (off : BitVec 8) : Prop :=
  readAdmitted width off ∧ (0x40 ≤ off.toNat → (s.ctx (digestOwner off)).phase = .finalized)

/-- A host event that causes no model-only fault in `s` (60_exceptions.md R210). -/
def eventSafe (s : State) : HostEvent → Prop
  | .read width off => readable s width off
  | .write width off _ => writeAdmitted width off
  | .reset => True

/-- Two contexts agree but for stale buffer bytes (10_state.md R23). -/
structure Context.Agree (C D : Context) : Prop where
  h : C.h = D.h
  fill : C.fill = D.fill
  len : C.len = D.len
  phase : C.phase = D.phase
  buf : ∀ i : Fin 64, i.val < C.fill.val → C.buf[i] = D.buf[i]

/-- Two states agree but for stale bytes of the buffers (10_state.md R23) and of the key block (R28). -/
structure State.Agree (s t : State) : Prop where
  h0 : s.H0.Agree t.H0
  h1 : s.H1.Agree t.H1
  kh : s.KH.Agree t.KH
  kb : ∀ i : Fin 64, i.val < s.KH.len.toNat → s.KB[i] = t.KB[i]
  err : s.err = t.err
  errcmd : s.errcmd = t.errcmd
  pending : s.pending = t.pending
  replies : s.replies = t.replies

/-- Two outcomes agree: next states that agree, or the same stop. -/
def ResultAgree : Result → Result → Prop
  | .next s, .next t => s.Agree t
  | .fault f, .fault g => f = g
  | .refused r, .refused q => r = q
  | _, _ => False

/-- Run a sequence of commands on a running core, one after another, stopping at the first fault or refusal. -/
def execSeq : List Instr → State → Result
  | [], s => .next s
  | i :: is, s =>
    match exec i s with
    | .next s' => execSeq is s'
    | .fault f => .fault f
    | .refused r => .refused r

/-- The commands that write context `c` of a running core (10_state.md R27). -/
def writesContext : Instr → CtxName → Bool
  | .init c, n | .add c _, n | .final c, n => (n == .H0 && c == 0) || (n == .H1 && c == 1)
  | .kinit, n | .kadd _, n => n == .KH
  | .hstart, _ => true
  | .hfinal, n => n != .KH

end Sys2Proof.Machine
end

