-- ==== Sys2Proof/Certificates/Slice0/Obligations.lean ====
section
/-! DEFINITION. The statements about SHA256-CORE, from the numbered rules of spec/. Each docstring names its rules (a number R<n>
is unique across spec/), and says so where the spec marks a rule as its own inference ("[derived: from …]") or where a clause is
the model's choice. The witnesses that meet the hypotheses are in Tests/Witnesses.lean. -/

open Sys2Proof Sys2Proof.Machine

/-! ## Encoding -/

/-- Words of 95_test_vectors.md V40, one or more for each command, and words that are no command. -/
def Obligations.SampleWordsDecode : Prop :=
  decode 0x10000000 = .command (.init 0) ∧ decode 0x11000000 = .command (.init 1) ∧
  decode 0x20000061 = .command (.add 0 0x61) ∧ decode 0x21000061 = .command (.add 1 0x61) ∧
  decode 0x30000000 = .command (.final 0) ∧ decode 0x31000000 = .command (.final 1) ∧
  decode 0x40000000 = .command .kinit ∧ decode 0x500000ff = .command (.kadd 0xff) ∧
  decode 0x60000000 = .command .hstart ∧ decode 0x70000000 = .command .hfinal ∧
  decode 0x00000000 = .illegal .unassignedOp ∧ decode 0x22000061 = .illegal .reservedBits ∧
  decode 0x510000ff = .illegal .unusedField

/-- R89, R90: decoding the word of any command, with every operand value, gives the command back. -/
def Obligations.DecodeOfEncode : Prop := ∀ i : Instr, decode (encode i) = .command i

/-- R88: a word that decodes to a command is that command's one word. With the reverse round trip, every one of the 2^32 words is
exactly one command or illegal. -/
def Obligations.EncodeOfDecode : Prop := ∀ (w : Word) (i : Instr), decode w = .command i → encode i = w

/-- R85, R86, R87: a word is a command exactly when its operation is assigned, its reserved fields are zero and the fields its
operation does not use are zero. -/
def Obligations.CommandsAreTheWellFormedWords : Prop :=
  ∀ w : Word, (∃ i, decode w = .command i) ↔
    ((splitFields w).op ∈ [1, 2, 3, 4, 5, 6, 7] ∧
     (splitFields w).rsv1 = 0 ∧ (splitFields w).rsv0 = 0 ∧
     ((splitFields w).op ∈ [4, 5, 6, 7] → (splitFields w).ctx = 0) ∧
     ((splitFields w).op ∈ [1, 3, 4, 6, 7] → (splitFields w).imm8 = 0))

/-- The declarative checks of WellFormed.lean accept exactly the words that decode to a command. -/
def Obligations.WellFormedAgreesWithDecode : Prop :=
  ∀ w : Word, (splitFields w).wellFormed = true ↔ ∃ i, decode w = .command i

/-- R90: the assembler reads the text of every command back as that command. -/
def Obligations.AssemblerReadsCommandText : Prop := ∀ i : Instr, assembleCommand (commandChars i) = some i

/-! ## The step: CMD writes, reads, reset, idle -/

/-- R57, R89: a CMD write on a running core, of a word that decodes to a command, executes that command; the access is taken from
the host's list and the rest of the list is untouched. -/
def Obligations.StepRunsDecodedCommand : Prop :=
  ∀ (s : State) (w : Word) (rest : List HostEvent) (i : Instr),
    s.pending = .write .w32 0x00 w :: rest → s.err = .none → decode w = .command i →
      step s = exec i { s with pending := rest }

/-- R87, R202: a CMD write of any other word raises ILLEGAL_CMD: the command has no effect, and the error latch records the word.
-/
def Obligations.IllegalWordRaisesIllegalCmd : Prop :=
  ∀ (s : State) (w : Word) (rest : List HostEvent),
    s.pending = .write .w32 0x00 w :: rest → s.err = .none → (splitFields w).wellFormed = false →
      step s = .next { s with pending := rest, err := .illegalCmd, errcmd := w }

/-- R207: while halted every CMD write is ignored, whatever the word, and every register read behaves as on a running core: it has
a value, and, but for STATUS, which shows the error itself, the value it would have had with no error latched. -/
def Obligations.HaltedCoreIgnoresCmdWrites : Prop :=
  (∀ (s : State) (w : Word) (rest : List HostEvent),
    s.pending = .write .w32 0x00 w :: rest → s.err ≠ .none → step s = .next { s with pending := rest }) ∧
  (∀ (s : State) (off : BitVec 8) (rest : List HostEvent),
    s.pending = .read .w32 off :: rest → s.err ≠ .none → readable s .w32 off →
      ∃ v, step s = .next { s with pending := rest, replies := s.replies ++ [v] } ∧
        (off ≠ 0x04 → step { s with err := .none } =
          .next { s with err := .none, pending := rest, replies := s.replies ++ [v] }))

/-- R208: no host event but reset leaves the halted state (nor changes the error that was latched, which R209 infers); a write to
STATUS or ERRCMD is a BadAccess fault; reset clears the latch. -/
def Obligations.OnlyResetLeavesHalt : Prop :=
  (∀ (s t : State) (e : HostEvent) (rest : List HostEvent),
    s.pending = e :: rest → s.err ≠ .none → e ≠ .reset → step s = .next t →
      t = { s with pending := rest, replies := t.replies }) ∧
  (∀ (s : State) (v : Word) (rest : List HostEvent),
    (s.pending = .write .w32 0x04 v :: rest ∨ s.pending = .write .w32 0x0C v :: rest) → step s = .fault .badAccess) ∧
  (∀ (s : State) (rest : List HostEvent), s.pending = .reset :: rest →
    ∃ t, step s = .next t ∧ t.err = .none ∧ t.errcmd = 0)

/-- R57, R200: every CMD write, of any of the 2^32 words and in any state, completes: no command faults, and the host's side
changes only by the access being taken. -/
def Obligations.EveryCmdWriteCompletes : Prop :=
  ∀ (s : State) (w : Word) (rest : List HostEvent), s.pending = .write .w32 0x00 w :: rest →
    ∃ t, step s = .next t ∧ t.pending = rest ∧ t.replies = s.replies

/-- R211: every access that R52 to R55 do not admit is a BadAccess fault, in every state. -/
def Obligations.UnadmittedAccessIsBadAccess : Prop :=
  ∀ (s : State) (width : Width) (off : BitVec 8) (v : Word) (rest : List HostEvent),
    (s.pending = .read width off :: rest → ¬ readAdmitted width off → step s = .fault .badAccess) ∧
    (s.pending = .write width off v :: rest → ¬ writeAdmitted width off → step s = .fault .badAccess)

/-- R56: a read that has a value changes no state of the block, and its value is the same whatever the host has read before or
does next; a read of a digest register of an Accumulating context has no value. -/
def Obligations.ReadsHaveNoSideEffects : Prop :=
  ∀ (s : State) (off : BitVec 8),
    (readable s .w32 off → ∃ v, ∀ (rest : List HostEvent) (rs : List Word),
      step { s with pending := .read .w32 off :: rest, replies := rs } =
        .next { s with pending := rest, replies := rs ++ [v] }) ∧
    (readAdmitted .w32 off → ¬ readable s .w32 off → ∀ rest : List HostEvent,
      step { s with pending := .read .w32 off :: rest } = .fault .readBeforeFinal)

/-- R29: STATUS at offset 0x004: PH0, PH1, PHK in bits 0 to 2, ERR in bits 11:8, reserved bits 0; 0 at reset; a write to it is
BadAccess. -/
def Obligations.StatusRegisterReads : Prop :=
  (∀ (s : State) (rest : List HostEvent), s.pending = .read .w32 0x04 :: rest →
    ∃ v : Word, step s = .next { s with pending := rest, replies := s.replies ++ [v] } ∧
      (v.getLsbD 0 = true ↔ s.H0.phase = .finalized) ∧ (v.getLsbD 1 = true ↔ s.H1.phase = .finalized) ∧
      (v.getLsbD 2 = true ↔ s.KH.phase = .finalized) ∧ v.extractLsb' 3 5 = 0 ∧
      (v.extractLsb' 8 4).toNat =
        (match s.err with | .none => 0 | .illegalCmd => 1 | .precond => 2 | .length => 3) ∧
      v.extractLsb' 12 20 = 0) ∧
  State.reset.statusWord = 0 ∧
  (∀ (s : State) (v : Word) (rest : List HostEvent), s.pending = .write .w32 0x04 v :: rest → step s = .fault .badAccess)

/-- R32: FILL at offset 0x008: the three fill pointers in bits 5:0, 13:8 and 21:16, reserved bits 0; 0 at reset; it is read-only.
-/
def Obligations.FillRegisterReads : Prop :=
  (∀ (s : State) (rest : List HostEvent), s.pending = .read .w32 0x08 :: rest →
    ∃ v : Word, step s = .next { s with pending := rest, replies := s.replies ++ [v] } ∧
      (v.extractLsb' 0 6).toNat = s.H0.fill.val ∧ (v.extractLsb' 8 6).toNat = s.H1.fill.val ∧
      (v.extractLsb' 16 6).toNat = s.KH.fill.val ∧
      v.extractLsb' 6 2 = 0 ∧ v.extractLsb' 14 2 = 0 ∧ v.extractLsb' 22 10 = 0) ∧
  State.reset.fillWord = 0 ∧
  (∀ (s : State) (v : Word) (rest : List HostEvent), s.pending = .write .w32 0x08 v :: rest → step s = .fault .badAccess)

/-- R33: the length registers at 0x010 to 0x024: LO is bits 31:0 and HI bits 63:32 of the byte count of H[0], H[1], KH; 0 at
reset; they are read-only. -/
def Obligations.LengthRegistersRead : Prop :=
  (∀ (s : State) (n : CtxName) (rest : List HostEvent) (base : BitVec 8),
    base = (match n with | .H0 => 0x10 | .H1 => 0x18 | .KH => 0x20) →
    ∃ lo hi : Word,
      step { s with pending := .read .w32 base :: rest } = .next { s with pending := rest, replies := s.replies ++ [lo] } ∧
      step { s with pending := .read .w32 (base + 4) :: rest } = .next { s with pending := rest, replies := s.replies ++ [hi] } ∧
      hi.toNat * 2 ^ 32 + lo.toNat = (s.ctx n).len.toNat ∧
      (∀ v : Word, step { s with pending := .write .w32 base v :: rest } = .fault .badAccess ∧
        step { s with pending := .write .w32 (base + 4) v :: rest } = .fault .badAccess)) ∧
  (∀ n, (State.reset.ctx n).len = 0)

/-- R30: ERRCMD at offset 0x00C shows the latched command word, and a read of it changes nothing in the block. -/
def Obligations.ErrcmdRegisterReads : Prop :=
  ∀ (s : State) (rest : List HostEvent), s.pending = .read .w32 0x0C :: rest →
    step s = .next { s with pending := rest, replies := s.replies ++ [s.errcmd] }

/-- R34, R212: DIGEST0 at 0x040, DIGEST1 at 0x060 and DIGESTK at 0x080 show the hash words of a Finalized context, word i at
offset 4i; a read while the context is Accumulating, as after reset, is ReadBeforeFinal; they are read-only. -/
def Obligations.DigestRegistersRead : Prop :=
  (∀ (s : State) (n : CtxName) (i : Fin 8) (off : BitVec 8) (rest : List HostEvent),
    off.toNat = (match n with | .H0 => 0x40 | .H1 => 0x60 | .KH => 0x80) + 4 * i.val →
    (s.pending = .read .w32 off :: rest → (s.ctx n).phase = .finalized →
      step s = .next { s with pending := rest, replies := s.replies ++ [(s.ctx n).h[i]] }) ∧
    (s.pending = .read .w32 off :: rest → (s.ctx n).phase = .accumulating → step s = .fault .readBeforeFinal) ∧
    (∀ v : Word, s.pending = .write .w32 off v :: rest → step s = .fault .badAccess)) ∧
  (∀ n, (State.reset.ctx n).phase = .accumulating)

/-- R220: with no access pending the block is idle and holds its state. The empty list standing for "no access" is the model's
choice (assumption 2). -/
def Obligations.IdleBlockHoldsState : Prop := ∀ s : State, s.pending = [] → step s = .next s

/-- R50: the window is 256 bytes at its base: every offset is reached at base + offset, and no other address reaches the block. -/
def Obligations.WindowIsTwoHundredFiftySixBytes : Prop :=
  ∀ (base addr : Nat) (off : BitVec 8), windowOffset base addr = some off ↔ addr = base + off.toNat

/-! ## Reset -/

/-- R43: the values the spec gives for reset. (The unspecified bytes of the buffers and of KB are not mentioned.) -/
def Obligations.ResetStateValues : Prop :=
  (∀ n, (State.reset.ctx n).h =
      #v[0x6a09e667, 0xbb67ae85, 0x3c6ef372, 0xa54ff53a, 0x510e527f, 0x9b05688c, 0x1f83d9ab, 0x5be0cd19] ∧
    (State.reset.ctx n).fill = 0 ∧ (State.reset.ctx n).len = 0 ∧ (State.reset.ctx n).phase = .accumulating) ∧
  State.reset.err = .none ∧ State.reset.errcmd = 0

/-- R230: the reset event gives every piece of state its reset value, in any state, and leaves the halted state. That the host's
remaining accesses follow it is the model's choice (assumption 4). -/
def Obligations.ResetEventRestoresState : Prop :=
  ∀ (s : State) (rest : List HostEvent), s.pending = .reset :: rest →
    ∃ t, step s = .next t ∧ t.pending = rest ∧ t.replies = s.replies ∧ t.err = .none ∧ t.errcmd = 0 ∧
      (∀ n, (t.ctx n).h = initialVector ∧ (t.ctx n).fill = 0 ∧ (t.ctx n).len = 0 ∧ (t.ctx n).phase = .accumulating)

/-! ## INIT, ADD, FINAL -/

/-- R145: INIT, the word 0x10000000 | ctx << 24, completes in every state and makes its context fresh; the buffer bytes and
everything else stay. -/
def Obligations.InitMakesContextFresh : Prop :=
  decode 0x10000000 = .command (.init 0) ∧ decode 0x11000000 = .command (.init 1) ∧
  ∀ (c : Fin 2) (s : State), ∃ t, exec (.init c) s = .next t ∧ t = s.setH c (t.H c) ∧
    (t.H c).h = initialVector ∧ (t.H c).fill = 0 ∧ (t.H c).len = 0 ∧ (t.H c).phase = .accumulating ∧
    (t.H c).buf = (s.H c).buf

/-- R146, R141, R142: ADD on an Accumulating context below the ceiling completes: the byte is stored at the fill pointer, the
length counts it, the 64th byte compresses the block, and nothing else changes. -/
def Obligations.AddAbsorbsOneByte : Prop :=
  ∀ (c : Fin 2) (b : Byte) (s : State),
    (s.H c).phase = .accumulating → (s.H c).len.toNat + 1 < Config.lenLimit →
    ∃ t, exec (.add c b) s = .next t ∧ t = s.setH c (t.H c) ∧
      (t.H c).phase = .accumulating ∧ (t.H c).len.toNat = (s.H c).len.toNat + 1 ∧
      (∀ j : Fin 64, (t.H c).buf[j] = if j = (s.H c).fill then b else (s.H c).buf[j]) ∧
      ((s.H c).fill.val < 63 → (t.H c).fill.val = (s.H c).fill.val + 1 ∧ (t.H c).h = (s.H c).h) ∧
      ((s.H c).fill.val = 63 → (t.H c).fill.val = 0 ∧ (t.H c).h = compress (s.H c).h (t.H c).buf)

/-- R147, R143 (R149 infers the number of blocks from it): FINAL on an Accumulating context completes, whatever its length: the
context is Finalized with fill pointer 0 and its length frozen, and its hash state is one compression of the buffered bytes, 0x80,
zeros and the length suffix when at most 55 bytes are buffered, else two. Nothing else changes. -/
def Obligations.FinalPadsAndFinalizes : Prop :=
  ∀ (c : Fin 2) (s : State), (s.H c).phase = .accumulating →
    ∃ t, exec (.final c) s = .next t ∧ t = s.setH c (t.H c) ∧
      (t.H c).phase = .finalized ∧ (t.H c).fill.val = 0 ∧ (t.H c).len = (s.H c).len ∧
      (let C := s.H c
       let held := C.buf.toList.take C.fill.val ++ [0x80]
       (C.fill.val ≤ 55 → (t.H c).h = compress C.h
          (blockOf (held ++ List.replicate (55 - C.fill.val) 0x00 ++ be64Bytes (C.len * 8)))) ∧
       (56 ≤ C.fill.val → (t.H c).h = compress (compress C.h (blockOf (held ++ List.replicate (63 - C.fill.val) 0x00)))
          (blockOf (List.replicate 56 0x00 ++ be64Bytes (C.len * 8)))))

/-- R148 (it infers the two zero bytes): below the ceiling, byte j of the length suffix is byte 7 - j of the bit count 8n, and its
first two bytes are zero. -/
def Obligations.LengthSuffixIsBigEndianBitCount : Prop :=
  ∀ n : Nat, n < Config.lenLimit →
    (be64Bytes (BitVec.ofNat 64 n * 8)).length = 8 ∧
    (∀ j : Nat, j < 8 → ((be64Bytes (BitVec.ofNat 64 n * 8)).getD j 0).toNat = 8 * n / 256 ^ (7 - j) % 256) ∧
    (be64Bytes (BitVec.ofNat 64 n * 8)).getD 0 0 = 0 ∧ (be64Bytes (BitVec.ofNat 64 n * 8)).getD 1 0 = 0

/-! ## KINIT, KADD, HSTART, HFINAL -/

/-- R172: KINIT, the word 0x40000000, completes in every state and empties the key hasher; KB, the buffer bytes and everything
else stay. -/
def Obligations.KinitStartsNewKey : Prop :=
  decode 0x40000000 = .command .kinit ∧
  ∀ s : State, ∃ t, exec .kinit s = .next t ∧ t = { s with KH := t.KH } ∧
    t.KH.h = initialVector ∧ t.KH.fill = 0 ∧ t.KH.len = 0 ∧ t.KH.phase = .accumulating ∧ t.KH.buf = s.KH.buf

/-- R173: KADD on an Accumulating KH below the ceiling completes: key bytes 0 to 63 also go to KB at their index, later bytes do
not, KH absorbs every byte, and nothing else changes. -/
def Obligations.KaddAppendsKeyByte : Prop :=
  ∀ (b : Byte) (s : State), s.KH.phase = .accumulating → s.KH.len.toNat + 1 < Config.lenLimit →
    ∃ t, exec (.kadd b) s = .next t ∧ t = { s with KH := t.KH, KB := t.KB } ∧
      (∀ j : Fin 64, t.KB[j] = if j.val = s.KH.len.toNat then b else s.KB[j]) ∧
      t.KH.phase = .accumulating ∧ t.KH.len.toNat = s.KH.len.toNat + 1 ∧
      (∀ j : Fin 64, t.KH.buf[j] = if j = s.KH.fill then b else s.KH.buf[j]) ∧
      (s.KH.fill.val < 63 → t.KH.fill.val = s.KH.fill.val + 1 ∧ t.KH.h = s.KH.h) ∧
      (s.KH.fill.val = 63 → t.KH.fill.val = 0 ∧ t.KH.h = compress s.KH.h t.KH.buf)

/-- R174, R176, R177: HSTART with a key of at most 64 bytes completes in every state: K0 is the key bytes of KB and zeros, H[0]
and H[1] each hold one compressed pad block from a fresh start, and the key hasher, KB and the error latch stay. -/
def Obligations.HstartWithShortKey : Prop :=
  ∀ s : State, s.KH.len.toNat ≤ 64 →
    ∃ t, exec .hstart s = .next t ∧ t = { s with H0 := t.H0, H1 := t.H1 } ∧
      (let K0 := fun i : Nat => if i < s.KH.len.toNat then s.KB.toList.getD i 0 else 0
       t.H0.h = compress initialVector (blockOf ((List.range 64).map fun i => K0 i ^^^ 0x36)) ∧
       t.H1.h = compress initialVector (blockOf ((List.range 64).map fun i => K0 i ^^^ 0x5c))) ∧
      t.H0.fill.val = 0 ∧ t.H0.len = 64 ∧ t.H0.phase = .accumulating ∧
      t.H1.fill.val = 0 ∧ t.H1.len = 64 ∧ t.H1.phase = .accumulating

/-- R174, R176: HSTART with a key longer than 64 bytes completes in every state: KH is finalized as FINAL would finalize it if it
is Accumulating and stays if it is Finalized; K0 is its digest and 32 zeros. KB and the error latch stay. -/
def Obligations.HstartWithLongKey : Prop :=
  ∀ s : State, 64 < s.KH.len.toNat →
    ∃ t, exec .hstart s = .next t ∧ t = { s with H0 := t.H0, H1 := t.H1, KH := t.KH } ∧
      t.KH.phase = .finalized ∧ (s.KH.phase = .finalized → t.KH = s.KH) ∧
      (s.KH.phase = .accumulating → ∀ u : State, u.H0 = s.KH → ∃ u', exec (.final 0) u = .next u' ∧ t.KH = u'.H0) ∧
      (let K0 := digestBytes t.KH.h ++ List.replicate 32 0x00
       t.H0.h = compress initialVector (blockOf (K0.map fun k => k ^^^ 0x36)) ∧
       t.H1.h = compress initialVector (blockOf (K0.map fun k => k ^^^ 0x5c))) ∧
      t.H0.fill.val = 0 ∧ t.H0.len = 64 ∧ t.H0.phase = .accumulating ∧
      t.H1.fill.val = 0 ∧ t.H1.len = 64 ∧ t.H1.phase = .accumulating

/-- R174: with a key of at most 64 bytes, HSTART is INIT of both contexts, then an ADD of each ipad byte to H[0] and of each opad
byte to H[1]. -/
def Obligations.HstartIsInitsThenAdds : Prop :=
  ∀ s : State, s.KH.len.toNat ≤ 64 →
    exec .hstart s =
      (let K0 := s.KB.toList.take s.KH.len.toNat ++ List.replicate (64 - s.KH.len.toNat) 0x00
       execSeq ([.init 0, .init 1] ++ K0.map (fun k => .add 0 (k ^^^ 0x36)) ++ K0.map (fun k => .add 1 (k ^^^ 0x5c))) s)

/-- R175: HFINAL with H[0] and H[1] Accumulating and 32 bytes of room in H[1] completes: both become Finalized with fill pointer
0, LEN0 stays, LEN1 grows by 32, H[0] is what FINAL 0 leaves, and the key hasher, KB and the error latch stay. -/
def Obligations.HfinalCompletesHmac : Prop :=
  ∀ s : State, s.H0.phase = .accumulating → s.H1.phase = .accumulating → s.H1.len.toNat + 32 < Config.lenLimit →
    ∃ t, exec .hfinal s = .next t ∧ t = { s with H0 := t.H0, H1 := t.H1 } ∧
      t.H0.phase = .finalized ∧ t.H0.fill.val = 0 ∧ t.H0.len = s.H0.len ∧
      t.H1.phase = .finalized ∧ t.H1.fill.val = 0 ∧ t.H1.len.toNat = s.H1.len.toNat + 32 ∧
      (∃ u, exec (.final 0) s = .next u ∧ u.H0 = t.H0)

/-- R175 (R181 infers the last clause): HFINAL is FINAL 0, then an ADD 1 of each of the 32 digest bytes of H[0], then FINAL 1:
only the inner digest passes from H[0] to H[1]. -/
def Obligations.HfinalIsFinalAddsFinal : Prop :=
  ∀ s u : State, s.H0.phase = .accumulating → s.H1.phase = .accumulating → s.H1.len.toNat + 32 < Config.lenLimit →
    exec (.final 0) s = .next u →
      exec .hfinal s = execSeq ((digestBytes u.H0.h).map (.add 1) ++ [.final 1]) u ∧ (digestBytes u.H0.h).length = 32

/-! ## Errors -/

/-- R203: PRECOND is raised, whatever the lengths, by ADD and FINAL on a Finalized context, KADD with KH Finalized and HFINAL with
H[0] or H[1] Finalized, and by no other command (so INIT, KINIT and HSTART never raise it). The latch takes the code and the
command word, and nothing else changes. -/
def Obligations.PrecondErrors : Prop :=
  (∀ (c : Fin 2) (b : Byte) (s : State), (s.H c).phase = .finalized →
    exec (.add c b) s = .next { s with err := .precond, errcmd := encode (.add c b) }) ∧
  (∀ (c : Fin 2) (s : State), (s.H c).phase = .finalized →
    exec (.final c) s = .next { s with err := .precond, errcmd := encode (.final c) }) ∧
  (∀ (b : Byte) (s : State), s.KH.phase = .finalized →
    exec (.kadd b) s = .next { s with err := .precond, errcmd := encode (.kadd b) }) ∧
  (∀ s : State, s.H0.phase = .finalized ∨ s.H1.phase = .finalized →
    exec .hfinal s = .next { s with err := .precond, errcmd := encode .hfinal }) ∧
  (∀ (i : Instr) (s t : State), s.err = .none → exec i s = .next t → t.err = .precond →
    (∃ c b, i = .add c b ∧ (s.H c).phase = .finalized) ∨ (∃ c, i = .final c ∧ (s.H c).phase = .finalized) ∨
    (∃ b, i = .kadd b ∧ s.KH.phase = .finalized) ∨
    (i = .hfinal ∧ (s.H0.phase = .finalized ∨ s.H1.phase = .finalized)))

/-- R204, with the order of R205: LENGTH is raised, when PRECOND is not, by ADD and KADD with room for no byte and by HFINAL with
room in H[1] for fewer than 32, and by no other command. The latch takes the code and the command word, and nothing else changes.
-/
def Obligations.LengthErrors : Prop :=
  (∀ (c : Fin 2) (b : Byte) (s : State), (s.H c).phase = .accumulating → Config.lenLimit ≤ (s.H c).len.toNat + 1 →
    exec (.add c b) s = .next { s with err := .length, errcmd := encode (.add c b) }) ∧
  (∀ (b : Byte) (s : State), s.KH.phase = .accumulating → Config.lenLimit ≤ s.KH.len.toNat + 1 →
    exec (.kadd b) s = .next { s with err := .length, errcmd := encode (.kadd b) }) ∧
  (∀ s : State, s.H0.phase = .accumulating → s.H1.phase = .accumulating → Config.lenLimit ≤ s.H1.len.toNat + 32 →
    exec .hfinal s = .next { s with err := .length, errcmd := encode .hfinal }) ∧
  (∀ (i : Instr) (s t : State), s.err = .none → exec i s = .next t → t.err = .length →
    (∃ c b, i = .add c b ∧ Config.lenLimit ≤ (s.H c).len.toNat + 1) ∨
    (∃ b, i = .kadd b ∧ Config.lenLimit ≤ s.KH.len.toNat + 1) ∨
    (i = .hfinal ∧ Config.lenLimit ≤ s.H1.len.toNat + 32))

/-! ## The compression engine -/

/-- R101, R106, R107: the bits of ROTR, SHR, Ch and Maj. -/
def Obligations.BitFunctionsBitwise : Prop :=
  (∀ (x : Word) (n i : Nat), 1 ≤ n → n ≤ 31 → i < 32 → (rotr x n).getLsbD i = x.getLsbD ((i + n) % 32)) ∧
  (∀ (x : Word) (n i : Nat), i < 32 → (shr x n).getLsbD i = x.getLsbD (i + n)) ∧
  (∀ (x y z : Word) (i : Nat), i < 32 →
    (ch x y z).getLsbD i = if x.getLsbD i = true then y.getLsbD i else z.getLsbD i) ∧
  (∀ (x y z : Word) (i : Nat), i < 32 →
    ((maj x y z).getLsbD i = true ↔
      2 ≤ (x.getLsbD i).toNat + (y.getLsbD i).toNat + (z.getLsbD i).toNat))

/-- R110, R111: the schedule has 64 words; the first 16 pack the block big-endian and the others satisfy the recurrence. -/
def Obligations.ScheduleMeetsRecurrence : Prop :=
  ∀ B : Block, (schedule B).length = 64 ∧
    (∀ t : Nat, t < 16 → ((schedule B).getD t 0).toNat =
      (B.toList.getD (4 * t) 0).toNat * 2 ^ 24 + (B.toList.getD (4 * t + 1) 0).toNat * 2 ^ 16 +
        (B.toList.getD (4 * t + 2) 0).toNat * 2 ^ 8 + (B.toList.getD (4 * t + 3) 0).toNat) ∧
    (∀ t : Nat, 16 ≤ t → t < 64 →
      let W := fun j => (schedule B).getD j 0
      W t = smallSigma1 (W (t - 2)) + W (t - 7) + smallSigma0 (W (t - 15)) + W (t - 16))

/-- R112, R113, R114: compression is the element-wise sum of the state and of the working variables after 64 rounds, where the
working variables before round t + 1 come from those before round t by the round's equations. -/
def Obligations.CompressRunsSixtyFourRounds : Prop :=
  ∀ (S : HashState) (B : Block), ∃ v : Nat → WorkVars,
    v 0 = ⟨S[0], S[1], S[2], S[3], S[4], S[5], S[6], S[7]⟩ ∧
    (∀ t : Nat, t < 64 →
      let T1 := (v t).h + bigSigma1 (v t).e + ch (v t).e (v t).f (v t).g + roundConstants.getD t 0 + (schedule B).getD t 0
      let T2 := bigSigma0 (v t).a + maj (v t).a (v t).b (v t).c
      v (t + 1) = ⟨T1 + T2, (v t).a, (v t).b, (v t).c, (v t).d + T1, (v t).e, (v t).f, (v t).g⟩) ∧
    (compress S B).toList = List.zipWith (· + ·) S.toList
      [(v 64).a, (v 64).b, (v 64).c, (v 64).d, (v 64).e, (v 64).f, (v 64).g, (v 64).h]

/-- R144: the digest is 32 bytes, and byte 4i + j of it is bits 31-8j down to 24-8j of h[i]. -/
def Obligations.DigestBytesAreBigEndian : Prop :=
  ∀ h : HashState, (digestBytes h).length = 32 ∧
    ∀ (i : Fin 8) (j : Nat), j < 4 → (digestBytes h).getD (4 * i.val + j) 0 = h[i].extractLsb' (24 - 8 * j) 8

/-! ## Whole-machine rules -/

/-- R41, R30, R176 (the spec infers R41 and the last sentence of R176 from the commands' rules): the invariants hold at reset. -/
def Obligations.InvariantsHoldAtReset : Prop := State.reset.Inv

/-- R41, R30, R176 (the spec infers R41 and the last sentence of R176 from the commands' rules): every step, from every state that
has the invariants, keeps them: the fill pointer of an Accumulating context is its length modulo 64, that of a Finalized context
is 0, every length is below the ceiling, ERRCMD is 0 on a running core, and KH is Finalized only for a key longer than 64 bytes.
-/
def Obligations.StepKeepsInvariants : Prop := ∀ s t : State, s.Inv → step s = .next t → t.Inv

/-- R23, R28, R42, which the spec infers from the commands' rules: stale bytes of the buffers and of the key block are never
observed: two states that differ only in them step to states that differ only in them, with the same replies, or stop alike. So no
result rests on the reset value the model chose for those bytes (assumption 3). -/
def Obligations.StaleBytesAreNeverObserved : Prop := ∀ s t : State, s.Agree t → ResultAgree (step s) (step t)

/-- R205, R206: when a CMD write on a running core raises an error, the latch takes the word that was written and one of the three
codes, and everything else is as it was. -/
def Obligations.ErrorEntryChangesOnlyTheLatch : Prop :=
  ∀ (s t : State) (w : Word) (rest : List HostEvent), s.pending = .write .w32 0x00 w :: rest → s.err = .none →
    step s = .next t → t.err ≠ .none →
      t = { s with pending := rest, err := t.err, errcmd := w } ∧
      (t.err = .illegalCmd ∨ t.err = .precond ∨ t.err = .length)

/-- R27, R140: a command writes only the contexts it names or is defined to use, only KADD writes KB, and no command touches the
host's side. -/
def Obligations.CommandsWriteOnlyTheirContexts : Prop :=
  ∀ (i : Instr) (s t : State), exec i s = .next t →
    (∀ n, writesContext i n = false → t.ctx n = s.ctx n) ∧
    ((∀ b, i ≠ .kadd b) → t.KB = s.KB) ∧ t.pending = s.pending ∧ t.replies = s.replies

/-- R25, R153: a Finalized context is changed only by INIT of it, by HSTART (H[0], H[1]) and by KINIT (KH); every other command
leaves it exactly as it is. -/
def Obligations.FinalizedContextIsFrozen : Prop :=
  ∀ (i : Instr) (s t : State) (n : CtxName), exec i s = .next t → (s.ctx n).phase = .finalized →
    t.ctx n = s.ctx n ∨ (n = .H0 ∧ (i = .init 0 ∨ i = .hstart)) ∨ (n = .H1 ∧ (i = .init 1 ∨ i = .hstart)) ∨
      (n = .KH ∧ i = .kinit)

/-- R239, R241, which the spec infers from R140, R172, R173 and R174: two commands that raise no error may be exchanged when one
is on H[0] and the other on H[1], and when one is KINIT or KADD and the other is INIT, ADD, FINAL or HFINAL (so key bytes do not
disturb an HMAC in progress). -/
def Obligations.IndependentCommandsCommute : Prop :=
  ∀ (i j : Instr) (s u t : State),
    (((i = .init 0 ∨ (∃ b, i = .add 0 b) ∨ i = .final 0) ∧ (j = .init 1 ∨ (∃ b, j = .add 1 b) ∨ j = .final 1)) ∨
     ((i = .kinit ∨ ∃ b, i = .kadd b) ∧
        ((∃ c, j = .init c) ∨ (∃ c b, j = .add c b) ∨ (∃ c, j = .final c) ∨ j = .hfinal))) →
    s.err = .none → exec i s = .next u → u.err = .none → exec j u = .next t → t.err = .none →
      ∃ u', exec j s = .next u' ∧ u'.err = .none ∧ exec i u' = .next t

/-- R9, which the spec infers from R146 and R152: for a context that the command leaves below 2^45 bytes, the ceiling check
answers the same for every admissible value of LEN_LIMIT. -/
def Obligations.LimitParameterIsImmaterialBelowCeiling : Prop :=
  ∀ (limit : Nat) (C : Context) (n : Nat), 2 ^ 45 ≤ limit → limit ≤ 2 ^ 61 → C.len.toNat + n < 2 ^ 45 →
    reachesLimit limit C n = reachesLimit Config.lenLimit C n

/-! ## What the commands compute -/

/-- R149 and R150, which the spec derives from R141, R143 and R148: the padding of an n-byte message has the least number of zeros
that makes the total a multiple of 64, and the padded message is floor((n + 8) / 64) + 1 blocks. -/
def Obligations.PaddingFillsWholeBlocks : Prop :=
  ∀ n : Nat, n + (padding n).length = 64 * ((n + 8) / 64 + 1) ∧
    (∀ k : Nat, (n + 1 + k + 8) % 64 = 0 → padZeros n ≤ k) ∧
    (n % 64 ≤ 55 → (n + 8) / 64 + 1 = n / 64 + 1) ∧ (56 ≤ n % 64 → (n + 8) / 64 + 1 = n / 64 + 2)

/-- R151, which the spec infers from R142 and R146: the state of a context after INIT and the ADDs of a message depends only on
the bytes: two runs from any two states, one of them in two parts, leave contexts that agree but for stale buffer bytes. -/
def Obligations.SplittingDoesNotMatter : Prop :=
  ∀ (c : Fin 2) (m n : List Byte) (s s' : State), (m ++ n).length < Config.lenLimit →
    ∃ t u t', execSeq (.init c :: addCommands c (m ++ n)) s = .next t ∧
      execSeq (.init c :: addCommands c m) s' = .next u ∧ execSeq (addCommands c n) u = .next t' ∧ (t.H c).Agree (t'.H c)

/-- R154, which the spec infers from R144 to R147: from every state of a running core, the CMD writes of INIT, an ADD for each
byte of any message below the ceiling, and FINAL leave SHA-256 of the message in the context, raise no error, and change nothing
else. -/
def Obligations.HashCommandsComputeSha256 : Prop :=
  ∀ (c : Fin 2) (m : List Byte) (s : State) (rest : List HostEvent), s.err = .none → m.length < Config.lenLimit →
    s.pending = commandWrites (shaCommands c m) ++ rest →
    ∃ t, Host.Core.run core (m.length + 2) s = .next t ∧ t = { s.setH c (t.H c) with pending := rest } ∧
      (t.H c).phase = .finalized ∧ (t.H c).h = sha256 m ∧ (t.H c).len = BitVec.ofNat 64 m.length

/-- R171, R178, and R182, which the spec infers from R172 to R178: from every state of a running core, the CMD writes of KINIT, a
KADD for each key byte, HSTART, an ADD 0 for each message byte, and HFINAL leave HMAC(k, m) in H[1] and the inner hash in H[0],
and raise no error. -/
def Obligations.HmacCommandsComputeHmac : Prop :=
  ∀ (k m : List Byte) (s : State) (rest : List HostEvent), s.err = .none → k.length < Config.lenLimit →
    64 + m.length < Config.lenLimit → s.pending = commandWrites (hmacCommands k m) ++ rest →
    ∃ t, Host.Core.run core (k.length + m.length + 3) s = .next t ∧ t.pending = rest ∧ t.replies = s.replies ∧
      t.err = .none ∧ t.errcmd = s.errcmd ∧ t.H0.phase = .finalized ∧ t.H1.phase = .finalized ∧
      t.H0.h = hmacInner k m ∧ t.H1.h = hmacSha256 k m ∧
      (t.KH.phase = .finalized ↔ 64 < k.length)

/-- R179, which the spec infers from R174 and R176: after an HMAC, a new HMAC under the same key needs only HSTART, the ADDs of
the new message and HFINAL. -/
def Obligations.KeyIsReusableAfterHmac : Prop :=
  ∀ (k m m' : List Byte) (s : State), s.err = .none → k.length < Config.lenLimit → 64 + m.length < Config.lenLimit →
    64 + m'.length < Config.lenLimit →
    ∃ t u, execSeq (hmacCommands k m) s = .next t ∧
      execSeq (.hstart :: (addCommands 0 m' ++ [.hfinal])) t = .next u ∧
      t.err = .none ∧ u.err = .none ∧ t.H1.h = hmacSha256 k m ∧ u.H1.h = hmacSha256 k m'

/-- R180, which the spec infers from R176: a key longer than 64 bytes and its SHA-256 digest used as the key give the same HMAC.
-/
def Obligations.LongKeyEqualsItsDigest : Prop :=
  ∀ (k m : List Byte) (s : State), s.err = .none → 64 < k.length → k.length < Config.lenLimit →
    64 + m.length < Config.lenLimit →
    ∃ t u, execSeq (hmacCommands k m) s = .next t ∧ execSeq (hmacCommands (digestBytes (sha256 k)) m) s = .next u ∧
      t.H1.phase = .finalized ∧ u.H1.phase = .finalized ∧ t.H1.h = u.H1.h

/-- R232, which the spec infers from R230 and R43: right after reset no INIT or KINIT is needed: ADDs and FINAL give SHA-256, and
KADDs, HSTART, ADDs and HFINAL give the HMAC. -/
def Obligations.ResetLeavesContextsReady : Prop :=
  (∀ (c : Fin 2) (m : List Byte), m.length < Config.lenLimit →
    ∃ t, execSeq (addCommands c m ++ [.final c]) State.reset = .next t ∧
      t.err = .none ∧ (t.H c).phase = .finalized ∧ (t.H c).h = sha256 m) ∧
  (∀ k m : List Byte, k.length < Config.lenLimit → 64 + m.length < Config.lenLimit →
    ∃ t, execSeq (k.map .kadd ++ .hstart :: (addCommands 0 m ++ [.hfinal])) State.reset = .next t ∧
      t.err = .none ∧ t.H1.phase = .finalized ∧ t.H1.h = hmacSha256 k m)
end

