-- ==== Sys2Proof/Laws/State.lean ====
section
/-! SUPPORT. What each state operation leaves in each field: one lemma per field, true by computation, for `simp`. -/

namespace Sys2Proof.Machine

@[simp] theorem State.H_zero (s : State) : s.H 0 = s.H0 := rfl
@[simp] theorem State.H_one (s : State) : s.H 1 = s.H1 := rfl
@[simp] theorem State.setH_zero (s : State) (C : Context) : s.setH 0 C = { s with H0 := C } := rfl
@[simp] theorem State.setH_one (s : State) (C : Context) : s.setH 1 C = { s with H1 := C } := rfl
@[simp] theorem State.ctx_H0 (s : State) : s.ctx .H0 = s.H0 := rfl
@[simp] theorem State.ctx_H1 (s : State) : s.ctx .H1 = s.H1 := rfl
@[simp] theorem State.ctx_KH (s : State) : s.ctx .KH = s.KH := rfl

/-- A context number is 0 or 1. -/
theorem ctx_eq (c : Fin 2) : c = 0 ∨ c = 1 := by omega

/-- A statement about both context numbers is two statements. -/
theorem ctx_cases {p : Fin 2 → Prop} (c : Fin 2) (h0 : p 0) (h1 : p 1) : p c := by
  match c with
  | 0 => exact h0
  | 1 => exact h1

@[simp] theorem State.setH_H (s : State) (c : Fin 2) (C : Context) : (s.setH c C).H c = C :=
  ctx_cases (p := fun c => (s.setH c C).H c = C) c rfl rfl

theorem State.setH_H_ne (s : State) {c d : Fin 2} (C : Context) (h : c ≠ d) : (s.setH c C).H d = s.H d := by
  revert h
  exact ctx_cases (p := fun c => c ≠ d → (s.setH c C).H d = s.H d) c
    (ctx_cases (p := fun d => 0 ≠ d → (s.setH 0 C).H d = s.H d) d (fun h => absurd rfl h) (fun _ => rfl))
    (ctx_cases (p := fun d => 1 ≠ d → (s.setH 1 C).H d = s.H d) d (fun _ => rfl) (fun h => absurd rfl h))

@[simp] theorem State.setH_KH (s : State) (c : Fin 2) (C : Context) : (s.setH c C).KH = s.KH :=
  ctx_cases (p := fun c => (s.setH c C).KH = s.KH) c rfl rfl
@[simp] theorem State.setH_KB (s : State) (c : Fin 2) (C : Context) : (s.setH c C).KB = s.KB :=
  ctx_cases (p := fun c => (s.setH c C).KB = s.KB) c rfl rfl
@[simp] theorem State.setH_err (s : State) (c : Fin 2) (C : Context) : (s.setH c C).err = s.err :=
  ctx_cases (p := fun c => (s.setH c C).err = s.err) c rfl rfl
@[simp] theorem State.setH_errcmd (s : State) (c : Fin 2) (C : Context) : (s.setH c C).errcmd = s.errcmd :=
  ctx_cases (p := fun c => (s.setH c C).errcmd = s.errcmd) c rfl rfl
@[simp] theorem State.setH_pending (s : State) (c : Fin 2) (C : Context) : (s.setH c C).pending = s.pending :=
  ctx_cases (p := fun c => (s.setH c C).pending = s.pending) c rfl rfl
@[simp] theorem State.setH_replies (s : State) (c : Fin 2) (C : Context) : (s.setH c C).replies = s.replies :=
  ctx_cases (p := fun c => (s.setH c C).replies = s.replies) c rfl rfl
@[simp] theorem State.setH_setH (s : State) (c : Fin 2) (C D : Context) : (s.setH c C).setH c D = s.setH c D :=
  ctx_cases (p := fun c => (s.setH c C).setH c D = s.setH c D) c rfl rfl
@[simp] theorem State.setH_self (s : State) (c : Fin 2) : s.setH c (s.H c) = s :=
  ctx_cases (p := fun c => s.setH c (s.H c) = s) c rfl rfl
@[simp] theorem State.H_pending (s : State) (p : List HostEvent) (c : Fin 2) : State.H { s with pending := p } c = s.H c := rfl
@[simp] theorem State.ctx_pending (s : State) (p : List HostEvent) (n : CtxName) :
    State.ctx { s with pending := p } n = s.ctx n := by cases n <;> rfl
@[simp] theorem State.setH_pending_comm (s : State) (p : List HostEvent) (c : Fin 2) (C : Context) :
    State.setH { s with pending := p } c C = { s.setH c C with pending := p } :=
  ctx_cases (p := fun c => State.setH { s with pending := p } c C = { s.setH c C with pending := p }) c rfl rfl

/-- The core runs exactly when nothing is latched. -/
theorem State.halted_eq_false_iff (s : State) : s.halted = false ↔ s.err = .none := by
  cases h : s.err <;> simp [State.halted, h]

theorem State.halted_eq_true_iff (s : State) : s.halted = true ↔ s.err ≠ .none := by
  cases h : s.err <;> simp [State.halted, h]

/-- A phase that is not Finalized is Accumulating. -/
theorem Phase.ne_finalized_iff (p : Phase) : p ≠ .finalized ↔ p = .accumulating := by cases p <;> simp

theorem Phase.ne_accumulating_iff (p : Phase) : p ≠ .accumulating ↔ p = .finalized := by cases p <;> simp

end Sys2Proof.Machine
end

