-- ==== Sys2Proof/Laws/Ops.lean ====
section
/-! SUPPORT. What each shared operation does, said once: PutByte and its iteration as compressions of 64-byte blocks, Absorb, the
padding loops, Finalize, and the checked outcome of a command. -/

namespace Sys2Proof.Machine

/-! ## PutByte -/

@[simp] theorem putByte_len (C : Context) (b : Byte) : (putByte C b).len = C.len := by
  unfold putByte; split <;> rfl

@[simp] theorem putByte_phase (C : Context) (b : Byte) : (putByte C b).phase = C.phase := by
  unfold putByte; split <;> rfl

@[simp] theorem putByte_buf (C : Context) (b : Byte) : (putByte C b).buf = C.buf.set C.fill.val b C.fill.isLt := by
  unfold putByte; split <;> rfl

/-- A byte that leaves room is stored, and no compression runs. -/
theorem putByte_room {C : Context} (b : Byte) (h : C.fill.val + 1 < 64) :
    (putByte C b).h = C.h ∧ (putByte C b).fill.val = C.fill.val + 1 := by
  simp [putByte, h]

/-- The byte that fills the buffer compresses it and empties the fill pointer. -/
theorem putByte_full {C : Context} (b : Byte) (h : ¬ C.fill.val + 1 < 64) :
    (putByte C b).h = compress C.h (C.buf.set C.fill.val b C.fill.isLt) ∧ (putByte C b).fill.val = 0 := by
  simp [putByte, h]

theorem putByte_fill (C : Context) (b : Byte) : (putByte C b).fill.val = (C.fill.val + 1) % 64 := by
  have := C.fill.isLt
  by_cases h : C.fill.val + 1 < 64
  · rw [(putByte_room b h).2]; omega
  · rw [(putByte_full b h).2]; omega

/-- PutByte neither reads nor writes the length. -/
theorem putByte_withLen (C : Context) (l : BitVec 64) (b : Byte) :
    putByte { C with len := l } b = { putByte C b with len := l } := by
  unfold putByte
  dsimp only
  split <;> rfl

/-- PutByte neither reads nor writes the phase. -/
theorem putByte_withPhase (C : Context) (p : Phase) (b : Byte) :
    putByte { C with phase := p } b = { putByte C b with phase := p } := by
  unfold putByte
  dsimp only
  split <;> rfl

/-! ## The bytes a context holds -/

/-- The bytes received since the last block was compressed (10_state.md R23). -/
def heldBytes (C : Context) : List Byte := C.buf.toList.take C.fill.val

@[simp] theorem heldBytes_length (C : Context) : (heldBytes C).length = C.fill.val := by
  have := C.fill.isLt
  simp [heldBytes]

theorem heldBytes_of_fill_zero {C : Context} (h : C.fill.val = 0) : heldBytes C = [] := by simp [heldBytes, h]

/-- `blockOf` reads the first 64 bytes only. -/
theorem blockOf_append (bs cs : List Byte) (h : 64 ≤ bs.length) : blockOf (bs ++ cs) = blockOf bs := by
  refine Vector.ext fun i hi => ?_
  simp only [blockOf, Vector.getElem_ofFn, List.getD_eq_getElem?_getD]
  rw [List.getElem?_append_left (by omega)]

/-- A block is the block of its own bytes. -/
theorem blockOf_toList (B : Block) : blockOf B.toList = B := by
  refine Vector.ext fun i hi => ?_
  simp [blockOf]

/-- The bytes in the buffer after a byte is stored at the fill pointer are the held bytes and that byte. -/
theorem take_set_fill (C : Context) (b : Byte) :
    (C.buf.set C.fill.val b C.fill.isLt).toList.take (C.fill.val + 1) = heldBytes C ++ [b] := by
  have hlt := C.fill.isLt
  have hlen : C.fill.val < C.buf.toList.length := by simp
  rw [Vector.toList_set, List.take_add_one, List.take_set_of_le (Nat.le_refl _)]
  simp [heldBytes]

theorem heldBytes_putByte_room {C : Context} (b : Byte) (h : C.fill.val + 1 < 64) :
    heldBytes (putByte C b) = heldBytes C ++ [b] := by
  rw [heldBytes, putByte_buf, (putByte_room b h).2, take_set_fill]

theorem compress_putByte_full {C : Context} (b : Byte) (h : ¬ C.fill.val + 1 < 64) :
    (putByte C b).h = compress C.h (blockOf (heldBytes C ++ [b])) := by
  have hlt := C.fill.isLt
  have hfill : C.fill.val + 1 = 64 := by omega
  have hblock : blockOf (heldBytes C ++ [b]) = C.buf.set C.fill.val b C.fill.isLt := by
    rw [← take_set_fill, hfill, List.take_of_length_le (by simp), blockOf_toList]
  rw [(putByte_full b h).1, hblock]

/-! ## PutByte over a byte sequence -/

@[simp] theorem putBytes_nil (C : Context) : putBytes C [] = C := rfl
@[simp] theorem putBytes_cons (C : Context) (b : Byte) (bs : List Byte) : putBytes C (b :: bs) = putBytes (putByte C b) bs := rfl

theorem putBytes_append (C : Context) (bs cs : List Byte) : putBytes C (bs ++ cs) = putBytes (putBytes C bs) cs :=
  List.foldl_append

@[simp] theorem putBytes_len (C : Context) (bs : List Byte) : (putBytes C bs).len = C.len := by
  induction bs generalizing C with
  | nil => rfl
  | cons b bs ih => rw [putBytes_cons, ih, putByte_len]

@[simp] theorem putBytes_phase (C : Context) (bs : List Byte) : (putBytes C bs).phase = C.phase := by
  induction bs generalizing C with
  | nil => rfl
  | cons b bs ih => rw [putBytes_cons, ih, putByte_phase]

theorem putBytes_fill (C : Context) (bs : List Byte) : (putBytes C bs).fill.val = (C.fill.val + bs.length) % 64 := by
  induction bs generalizing C with
  | nil => simp [Nat.mod_eq_of_lt C.fill.isLt]
  | cons b bs ih =>
    rw [putBytes_cons, ih, putByte_fill, List.length_cons]
    omega

/-- **PutByte over a byte sequence is compression block by block**: of the held bytes and the new ones, every whole block is
compressed in order, and the rest is held. -/
theorem putBytes_blocks (C : Context) (bs : List Byte) :
    (putBytes C bs).h = compressBlocks ((C.fill.val + bs.length) / 64) C.h (heldBytes C ++ bs) ∧
    heldBytes (putBytes C bs) = (heldBytes C ++ bs).drop (64 * ((C.fill.val + bs.length) / 64)) := by
  induction bs generalizing C with
  | nil =>
    have := C.fill.isLt
    have h0 : C.fill.val / 64 = 0 := by omega
    simp [h0, compressBlocks]
  | cons b bs ih =>
    have hlt := C.fill.isLt
    rw [putBytes_cons, (ih _).1, (ih _).2]
    by_cases h : C.fill.val + 1 < 64
    · have hf := (putByte_room b h).2
      have hn : (putByte C b).fill.val + bs.length = C.fill.val + (b :: bs).length := by
        rw [hf, List.length_cons]; omega
      rw [hn, heldBytes_putByte_room b h, (putByte_room b h).1, List.append_assoc, List.singleton_append]
      exact ⟨rfl, rfl⟩
    · have hf := (putByte_full b h).2
      have hn : (C.fill.val + (b :: bs).length) / 64 = bs.length / 64 + 1 := by
        rw [List.length_cons]; omega
      have hheld : (heldBytes C ++ [b]).length = 64 := by simp; omega
      have hall : heldBytes C ++ b :: bs = (heldBytes C ++ [b]) ++ bs := by simp
      rw [hf, hn, heldBytes_of_fill_zero hf, compress_putByte_full b h, hall]
      refine ⟨?_, ?_⟩
      · simp only [Nat.zero_add, List.nil_append, compressBlocks]
        rw [blockOf_append _ _ (Nat.le_of_eq hheld.symm), ← hheld, List.drop_left]
      · have h64 : 64 * (bs.length / 64 + 1) = (heldBytes C ++ [b]).length + 64 * (bs.length / 64) := by omega
        rw [h64, ← List.drop_drop, List.drop_left, Nat.zero_add, List.nil_append]

/-! ## Absorb -/

@[simp] theorem absorb_len (C : Context) (b : Byte) : (absorb C b).len = C.len + 1 := rfl
@[simp] theorem absorb_phase (C : Context) (b : Byte) : (absorb C b).phase = C.phase := putByte_phase C b
@[simp] theorem absorb_h (C : Context) (b : Byte) : (absorb C b).h = (putByte C b).h := rfl
@[simp] theorem absorb_fill (C : Context) (b : Byte) : (absorb C b).fill = (putByte C b).fill := rfl
@[simp] theorem absorb_buf (C : Context) (b : Byte) : (absorb C b).buf = C.buf.set C.fill.val b C.fill.isLt := putByte_buf C b

@[simp] theorem absorbBytes_nil (C : Context) : absorbBytes C [] = C := rfl
@[simp] theorem absorbBytes_cons (C : Context) (b : Byte) (bs : List Byte) :
    absorbBytes C (b :: bs) = absorbBytes (absorb C b) bs := rfl

theorem absorbBytes_append (C : Context) (bs cs : List Byte) :
    absorbBytes C (bs ++ cs) = absorbBytes (absorbBytes C bs) cs := List.foldl_append

theorem putBytes_withLen (C : Context) (l : BitVec 64) (bs : List Byte) :
    putBytes { C with len := l } bs = { putBytes C bs with len := l } := by
  induction bs generalizing C with
  | nil => rfl
  | cons b bs ih => rw [putBytes_cons, putBytes_cons, putByte_withLen, ih]

theorem putBytes_withPhase (C : Context) (p : Phase) (bs : List Byte) :
    putBytes { C with phase := p } bs = { putBytes C bs with phase := p } := by
  induction bs generalizing C with
  | nil => rfl
  | cons b bs ih => rw [putBytes_cons, putBytes_cons, putByte_withPhase, ih]

/-- Absorbing a byte sequence is putting its bytes and counting them. -/
theorem absorbBytes_eq (C : Context) (bs : List Byte) :
    absorbBytes C bs = { putBytes C bs with len := C.len + BitVec.ofNat 64 bs.length } := by
  induction bs generalizing C with
  | nil => simp
  | cons b bs ih =>
    rw [absorbBytes_cons, ih, putBytes_cons, absorb, putBytes_withLen]
    simp only [List.length_cons]
    congr 1
    rw [BitVec.add_assoc, Nat.add_comm bs.length 1, BitVec.ofNat_add]
    rfl

/-! ## The padding loops and Finalize -/

/-- The loop that zero-fills to the end of the block. -/
theorem zeroFill_toEnd (fuel : Nat) (C : Context) (h : (64 - C.fill.val) % 64 ≤ fuel) :
    zeroFillWhile (fun D => D.fill != 0) fuel C = putBytes C (List.replicate ((64 - C.fill.val) % 64) 0x00) := by
  induction fuel generalizing C with
  | zero =>
    have h0 : (64 - C.fill.val) % 64 = 0 := by omega
    rw [h0]; rfl
  | succ n ih =>
    have hlt := C.fill.isLt
    have hstep := putByte_fill C 0x00
    unfold zeroFillWhile
    by_cases hz : C.fill = 0
    · have : C.fill.val = 0 := by rw [hz]; rfl
      have h0 : (64 - C.fill.val) % 64 = 0 := by omega
      simp [hz]
    · have hv : C.fill.val ≠ 0 := fun e => hz (Fin.ext e)
      have hr : (64 - C.fill.val) % 64 = (64 - (putByte C 0x00).fill.val) % 64 + 1 := by omega
      rw [if_pos (by simpa using hz), ih _ (by omega), hr, List.replicate_succ, putBytes_cons]

/-- The loop that zero-fills up to offset 56. -/
theorem zeroFill_toSuffix (fuel : Nat) (C : Context) (h : 56 - C.fill.val ≤ fuel) :
    zeroFillWhile (fun D => decide (D.fill.val < 56)) fuel C = putBytes C (List.replicate (56 - C.fill.val) 0x00) := by
  induction fuel generalizing C with
  | zero =>
    have h0 : 56 - C.fill.val = 0 := by omega
    rw [h0]; rfl
  | succ n ih =>
    have hlt := C.fill.isLt
    have hstep := putByte_fill C 0x00
    unfold zeroFillWhile
    by_cases hz : C.fill.val < 56
    · have hr : 56 - C.fill.val = (56 - (putByte C 0x00).fill.val) + 1 := by omega
      rw [if_pos (by simpa using hz), ih _ (by omega), hr, List.replicate_succ, putBytes_cons]
    · have h0 : 56 - C.fill.val = 0 := by omega
      rw [if_neg (by simpa using hz), h0]; rfl

/-- **Finalize is one run of PutByte over the padding** of a message that leaves `fill` bytes held. -/
theorem finalize_eq (C : Context) :
    finalize C =
      { putBytes C (0x80 :: (List.replicate (padZeros C.fill.val) 0x00 ++ lengthSuffix C.len)) with phase := .finalized } := by
  have hlt := C.fill.isLt
  have h1 := putByte_fill C 0x80
  have zeros : zeroFillWhile (fun D => decide (D.fill.val < 56)) 64
      (if 64 - (putByte C 0x80).fill.val < 8 then zeroFillWhile (fun D => D.fill != 0) 64 (putByte C 0x80) else putByte C 0x80) =
      putBytes (putByte C 0x80) (List.replicate (padZeros C.fill.val) 0x00) := by
    by_cases h : 64 - (putByte C 0x80).fill.val < 8
    · have h2 := putBytes_fill (putByte C 0x80) (List.replicate ((64 - (putByte C 0x80).fill.val) % 64) 0x00)
      rw [List.length_replicate] at h2
      have hn : padZeros C.fill.val = (64 - (putByte C 0x80).fill.val) % 64 + 56 := by simp only [padZeros]; omega
      rw [if_pos h, zeroFill_toEnd _ _ (by omega), zeroFill_toSuffix _ _ (by omega), ← putBytes_append,
        List.replicate_append_replicate, hn, show (56 : Nat) - (putBytes (putByte C 0x80)
          (List.replicate ((64 - (putByte C 0x80).fill.val) % 64) 0x00)).fill.val = 56 by omega]
    · have hn : padZeros C.fill.val = 56 - (putByte C 0x80).fill.val := by simp only [padZeros]; omega
      rw [if_neg h, zeroFill_toSuffix _ _ (by omega), hn]
  unfold finalize
  dsimp only
  rw [zeros, putBytes_cons, putBytes_append]

@[simp] theorem lengthSuffix_length (l : BitVec 64) : (lengthSuffix l).length = 8 := rfl

@[simp] theorem finalize_phase (C : Context) : (finalize C).phase = .finalized := by rw [finalize_eq]
@[simp] theorem finalize_len (C : Context) : (finalize C).len = C.len := by rw [finalize_eq]; simp

@[simp] theorem finalize_fill (C : Context) : (finalize C).fill.val = 0 := by
  have hlt := C.fill.isLt
  rw [finalize_eq]
  dsimp only
  rw [putBytes_fill]
  simp [padZeros]; omega

@[simp] theorem freshen_h (C : Context) : (freshen C).h = initialVector := rfl
@[simp] theorem freshen_fill (C : Context) : (freshen C).fill = 0 := rfl
@[simp] theorem freshen_len (C : Context) : (freshen C).len = 0 := rfl
@[simp] theorem freshen_phase (C : Context) : (freshen C).phase = .accumulating := rfl
@[simp] theorem freshen_buf (C : Context) : (freshen C).buf = C.buf := rfl

/-! ## The outcome of a command's checks -/

@[simp] theorem isFinalized_iff (C : Context) : isFinalized C = true ↔ C.phase = .finalized := by
  cases h : C.phase <;> simp [isFinalized, h]

@[simp] theorem isFinalized_eq_false_iff (C : Context) : isFinalized C = false ↔ C.phase = .accumulating := by
  cases h : C.phase <;> simp [isFinalized, h]

/-- Everything a command with checks can answer: PRECOND latched, LENGTH latched, or its effect. -/
theorem checked_next {p l : Bool} {w : Word} {s s' t : State} (h : checked p l w s s' = .next t) :
    (p = true ∧ t = { s with err := .precond, errcmd := w }) ∨
    (p = false ∧ l = true ∧ t = { s with err := .length, errcmd := w }) ∨
    (p = false ∧ l = false ∧ t = s') := by
  cases p <;> cases l <;> simp_all [checked, raiseError]

/-- A command with checks always answers a next state. -/
theorem checked_completes (p l : Bool) (w : Word) (s s' : State) : ∃ t, checked p l w s s' = .next t := by
  cases p <;> cases l <;> simp [checked, raiseError]

end Sys2Proof.Machine
end

