-- ==== Sys2Proof/Laws/Agree.lean ====
section
/-! SUPPORT. The shared operations do not observe stale bytes (10_state.md R23, R28, R42): applied to contexts that agree but for
them, they give contexts that agree but for them. -/

namespace Sys2Proof.Machine

theorem Context.Agree.refl (C : Context) : C.Agree C := ⟨rfl, rfl, rfl, rfl, fun _ _ => rfl⟩

/-- Contexts that agree hold the same bytes. -/
theorem Context.Agree.heldBytes_eq {C D : Context} (a : C.Agree D) : heldBytes C = heldBytes D := by
  have hlt := D.fill.isLt
  have hf : C.fill.val = D.fill.val := congrArg Fin.val a.fill
  refine List.ext_getElem (by simp [hf]) fun i h1 h2 => ?_
  rw [heldBytes_length] at h1
  have hb := a.buf ⟨i, by omega⟩ h1
  simpa [heldBytes] using hb

theorem putByte_agree {C D : Context} (a : C.Agree D) (b : Byte) : (putByte C b).Agree (putByte D b) := by
  have hf : C.fill.val = D.fill.val := congrArg Fin.val a.fill
  have hlt := D.fill.isLt
  have hfill : (putByte C b).fill = (putByte D b).fill := Fin.ext (by rw [putByte_fill, putByte_fill, hf])
  refine ⟨?_, hfill, by simpa using a.len, by simpa using a.phase, fun i hi => ?_⟩
  · by_cases h : C.fill.val + 1 < 64
    · rw [(putByte_room b h).1, (putByte_room b (by omega : D.fill.val + 1 < 64)).1, a.h]
    · rw [compress_putByte_full b h, compress_putByte_full b (by omega : ¬ D.fill.val + 1 < 64), a.h, a.heldBytes_eq]
  · rw [putByte_fill] at hi
    have hs := a.buf i
    simp only [putByte_buf, Fin.getElem_fin, Vector.getElem_set, hf] at hs ⊢
    by_cases he : D.fill.val = i.val
    · rw [if_pos he, if_pos he]
    · rw [if_neg he, if_neg he]
      exact hs (by omega)

theorem putBytes_agree {C D : Context} (a : C.Agree D) (bs : List Byte) : (putBytes C bs).Agree (putBytes D bs) := by
  induction bs generalizing C D with
  | nil => exact a
  | cons b bs ih => exact ih (putByte_agree a b)

theorem absorbBytes_agree {C D : Context} (a : C.Agree D) (bs : List Byte) : (absorbBytes C bs).Agree (absorbBytes D bs) := by
  have hp := putBytes_agree a bs
  rw [absorbBytes_eq, absorbBytes_eq]
  exact ⟨hp.h, hp.fill, by rw [a.len], hp.phase, hp.buf⟩

theorem absorb_agree {C D : Context} (a : C.Agree D) (b : Byte) : (absorb C b).Agree (absorb D b) := absorbBytes_agree a [b]

theorem freshen_agree (C D : Context) : (freshen C).Agree (freshen D) :=
  ⟨rfl, rfl, rfl, rfl, fun i hi => absurd hi (by simp)⟩

theorem finalize_agree {C D : Context} (a : C.Agree D) : (finalize C).Agree (finalize D) := by
  rw [finalize_eq, finalize_eq, a.fill, a.len]
  have hp := putBytes_agree a (0x80 :: (List.replicate (padZeros D.fill.val) 0x00 ++ lengthSuffix D.len))
  exact ⟨hp.h, hp.fill, hp.len, rfl, hp.buf⟩

/-- Replacing a context by agreeing ones keeps agreement of the states. -/
theorem State.Agree.ctxH {s t : State} (a : s.Agree t) (c : Fin 2) : (s.H c).Agree (t.H c) :=
  ctx_cases (p := fun c => (s.H c).Agree (t.H c)) c a.h0 a.h1

theorem State.Agree.setH {s t : State} (a : s.Agree t) (c : Fin 2) {C D : Context} (h : C.Agree D) :
    (s.setH c C).Agree (t.setH c D) :=
  ctx_cases (p := fun c => (s.setH c C).Agree (t.setH c D)) c
    ⟨h, a.h1, a.kh, a.kb, a.err, a.errcmd, a.pending, a.replies⟩
    ⟨a.h0, h, a.kh, a.kb, a.err, a.errcmd, a.pending, a.replies⟩

end Sys2Proof.Machine
end

