-- ==== Sys2Proof/Laws/Exec.lean ====
section
/-! SUPPORT. What a command can do, and what a step can do, said once. -/

namespace Sys2Proof.Machine

/-- The state a command leaves when none of its checks fails. -/
def effect : Instr → State → State
  | .init c, s => s.setH c (freshen (s.H c))
  | .add c b, s => s.setH c (absorb (s.H c) b)
  | .final c, s => s.setH c (finalize (s.H c))
  | .kinit, s => { s with KH := freshen s.KH }
  | .kadd b, s => { s with KB := storeKeyByte s.KB s.KH.len b, KH := absorb s.KH b }
  | .hstart, s =>
    { s with
      KH := settleKey s.KH
      H0 := absorbBytes (freshen s.H0) (padBytes Config.ipadByte (keyBlockK0 (settleKey s.KH) s.KB))
      H1 := absorbBytes (freshen s.H1) (padBytes Config.opadByte (keyBlockK0 (settleKey s.KH) s.KB)) }
  | .hfinal, s =>
    { s with H0 := finalize s.H0, H1 := finalize (absorbBytes s.H1 (digestBytes (finalize s.H0).h)) }

/-- The precondition of a command fails (60_exceptions.md R203). -/
def failsPrecond : Instr → State → Bool
  | .add c _, s | .final c, s => isFinalized (s.H c)
  | .kadd _, s => isFinalized s.KH
  | .hfinal, s => isFinalized s.H0 || isFinalized s.H1
  | .init _, _ | .kinit, _ | .hstart, _ => false

/-- The ceiling check of a command fails (60_exceptions.md R204). -/
def failsLength : Instr → State → Bool
  | .add c _, s => reachesLimit Config.lenLimit (s.H c) 1
  | .kadd _, s => reachesLimit Config.lenLimit s.KH 1
  | .hfinal, s => reachesLimit Config.lenLimit s.H1 32
  | .init _, _ | .final _, _ | .kinit, _ | .hstart, _ => false

/-- Every command is its checks in order, then its effect. -/
theorem exec_eq_checked (i : Instr) (s : State) :
    exec i s = checked (failsPrecond i s) (failsLength i s) (encode i) s (effect i s) := by cases i <;> rfl

/-- Everything a command can answer. -/
theorem exec_cases {i : Instr} {s t : State} (h : exec i s = .next t) :
    (failsPrecond i s = true ∧ t = { s with err := .precond, errcmd := encode i }) ∨
    (failsPrecond i s = false ∧ failsLength i s = true ∧ t = { s with err := .length, errcmd := encode i }) ∨
    (failsPrecond i s = false ∧ failsLength i s = false ∧ t = effect i s) := by
  rw [exec_eq_checked] at h
  exact checked_next h

/-- A command whose checks pass has its effect. -/
theorem exec_effect {i : Instr} {s : State} (hp : failsPrecond i s = false) (hl : failsLength i s = false) :
    exec i s = .next (effect i s) := by simp [exec_eq_checked, checked, hp, hl]

/-- A command whose precondition fails latches PRECOND. -/
theorem exec_precond {i : Instr} {s : State} (hp : failsPrecond i s = true) :
    exec i s = .next { s with err := .precond, errcmd := encode i } := by simp [exec_eq_checked, checked, hp, raiseError]

/-- A command whose ceiling check fails first latches LENGTH. -/
theorem exec_length {i : Instr} {s : State} (hp : failsPrecond i s = false) (hl : failsLength i s = true) :
    exec i s = .next { s with err := .length, errcmd := encode i } := by simp [exec_eq_checked, checked, hp, hl, raiseError]

/-- Every command answers a next state, in every state. -/
theorem exec_completes (i : Instr) (s : State) : ∃ t, exec i s = .next t := by
  rw [exec_eq_checked]; exact checked_completes _ _ _ _ _

@[simp] theorem effect_err (i : Instr) (s : State) : (effect i s).err = s.err := by cases i <;> simp [effect]
@[simp] theorem effect_errcmd (i : Instr) (s : State) : (effect i s).errcmd = s.errcmd := by cases i <;> simp [effect]
@[simp] theorem effect_pending (i : Instr) (s : State) : (effect i s).pending = s.pending := by cases i <;> simp [effect]
@[simp] theorem effect_replies (i : Instr) (s : State) : (effect i s).replies = s.replies := by cases i <;> simp [effect]

/-- No command looks at the host's side. -/
theorem effect_withPending (i : Instr) (s : State) (p : List HostEvent) :
    effect i { s with pending := p } = { effect i s with pending := p } := by cases i <;> simp [effect]

/-! ## The step -/

/-- The step takes a CMD write at the head of the host's list. -/
theorem step_write {s : State} {width : Width} {off : BitVec 8} {v : Word} {rest : List HostEvent}
    (h : s.pending = .write width off v :: rest) : step s = hostWrite width off v { s with pending := rest } := by
  simp only [step, nextEvent, h, hostEvent]

theorem step_writeCmd {s : State} {w : Word} {rest : List HostEvent} (h : s.pending = .write .w32 0x00 w :: rest) :
    step s = cmdWrite w { s with pending := rest } := by
  rw [step_write h]; rfl

theorem step_read {s : State} {width : Width} {off : BitVec 8} {rest : List HostEvent}
    (h : s.pending = .read width off :: rest) : step s = hostRead width off { s with pending := rest } := by
  simp only [step, nextEvent, h, hostEvent]

theorem step_reset {s : State} {rest : List HostEvent} (h : s.pending = .reset :: rest) :
    step s = .next (resetBlock { s with pending := rest }) := by
  simp only [step, nextEvent, h, hostEvent]

theorem step_idle {s : State} (h : s.pending = []) : step s = .next s := by simp only [step, nextEvent, h]

/-- A CMD write on a halted core is ignored. -/
theorem cmdWrite_halted {s : State} (w : Word) (h : s.err ≠ .none) : cmdWrite w s = .next s := by
  simp only [cmdWrite, (State.halted_eq_true_iff s).2 h, if_true]

/-- A CMD write on a running core is decoded and executed. -/
theorem cmdWrite_running {s : State} (w : Word) (h : s.err = .none) :
    cmdWrite w s = match decode w with
      | .illegal _ => raiseError .illegalCmd w s
      | .command i => exec i s := by
  have running := (State.halted_eq_false_iff s).2 h
  unfold cmdWrite
  cases decode w <;> simp [running]

/-- The offsets the map gives no readable register are those 20_memory.md R52 to R55 do not admit. -/
theorem regAt_unreadable_iff : ∀ off : BitVec 8, (regAt off = none ∨ regAt off = some .cmd) ↔
    ¬ (off.toNat % 4 = 0 ∧ (0x04 ≤ off.toNat ∧ off.toNat ≤ 0x24 ∨ 0x40 ≤ off.toNat ∧ off.toNat ≤ 0x9C)) := by decide +kernel

theorem regAt_cmd_iff : ∀ off : BitVec 8, regAt off = some .cmd ↔ off.toNat = 0 := by decide +kernel

/-- Everything a read can answer: its value with nothing else changed, or one of the two faults. -/
theorem hostRead_cases (width : Width) (off : BitVec 8) (s : State) :
    (∃ r v, regAt off = some r ∧ readReg s r = .ok v ∧ hostRead width off s = .next { s with replies := s.replies ++ [v] }) ∨
    (∃ f, hostRead width off s = .fault f) := by
  unfold hostRead
  split
  · split
    · exact .inr ⟨_, rfl⟩
    · rename_i r hr
      split
      · exact .inl ⟨r, _, hr, by assumption, rfl⟩
      · exact .inr ⟨_, rfl⟩
  · exact .inr ⟨_, rfl⟩

end Sys2Proof.Machine
end

