-- ==== Sys2Proof/Laws/PerInstr.lean ====
section
/-! SUPPORT. For each command, the fields its word carries (30_encoding.md R81, R82, R90): the operation code, the operands in
their places, and zero everywhere else. -/

namespace Sys2Proof.Laws.CommandFields

/-- The fields of a command (30_encoding.md R82). -/
def fieldsOf : Instr → CmdFields
  | .init c => ⟨0x1, 0, BitVec.ofNat 1 c.val, 0, 0⟩
  | .add c b => ⟨0x2, 0, BitVec.ofNat 1 c.val, 0, b⟩
  | .final c => ⟨0x3, 0, BitVec.ofNat 1 c.val, 0, 0⟩
  | .kinit => ⟨0x4, 0, 0, 0, 0⟩
  | .kadd b => ⟨0x5, 0, 0, 0, b⟩
  | .hstart => ⟨0x6, 0, 0, 0, 0⟩
  | .hfinal => ⟨0x7, 0, 0, 0, 0⟩

/-- The word of a command splits into exactly its fields. -/
abbrev Statement (i : Instr) : Prop := splitFields (encode i) = fieldsOf i

theorem init (c : Fin 2) : Statement (.init c) := by revert c; decide
theorem add (c : Fin 2) (b : Byte) : Statement (.add c b) := by revert c b; decide +kernel
theorem final (c : Fin 2) : Statement (.final c) := by revert c; decide
theorem kinit : Statement .kinit := by decide
theorem kadd (b : Byte) : Statement (.kadd b) := by revert b; decide +kernel
theorem hstart : Statement .hstart := by decide
theorem hfinal : Statement .hfinal := by decide

end Sys2Proof.Laws.CommandFields
end

