-- ==== Sys2Proof/Laws/Runs.lean ====
section
/-! SUPPORT. Runs of several commands: what a sequence of ADDs or of KADDs leaves, what Finalize gives on a context that started
fresh, and the pieces of the HMAC key derivation. -/

namespace Sys2Proof.Machine

theorem next_inj {s t : State} (h : (Host.Outcome.next s : Result) = .next t) : s = t := Host.Outcome.next.inj h

/-- A count below the ceiling passes the check. -/
theorem reachesLimit_eq_false {C : Context} {n : Nat} (h : C.len.toNat + n < Config.lenLimit) :
    reachesLimit Config.lenLimit C n = false := by
  simp [reachesLimit]; omega

/-- A command on a running core that leaves it running has had its effect. -/
theorem exec_of_running {i : Instr} {s u : State} (h : exec i s = .next u) (hu : u.err = .none) :
    failsPrecond i s = false ∧ failsLength i s = false ∧ u = effect i s := by
  rcases exec_cases h with ⟨_, rfl⟩ | ⟨_, _, rfl⟩ | h
  · cases hu
  · cases hu
  · exact h

/-! ## Sequences -/

theorem execSeq_append (is js : List Instr) (s t : State) (h : execSeq is s = .next t) :
    execSeq (is ++ js) s = execSeq js t := by
  induction is generalizing s with
  | nil => rw [← next_inj h]; rfl
  | cons i is ih =>
    simp only [List.cons_append, execSeq] at h ⊢
    obtain ⟨u, hu⟩ := exec_completes i s
    rw [hu] at h ⊢
    exact ih u h

/-- ADDs on an Accumulating context with room absorb their bytes in order. -/
theorem execSeq_adds (c : Fin 2) (bs : List Byte) (s : State) (hp : (s.H c).phase = .accumulating)
    (hl : (s.H c).len.toNat + bs.length < Config.lenLimit) :
    execSeq (bs.map (.add c)) s = .next (s.setH c (absorbBytes (s.H c) bs)) := by
  have hL : Config.lenLimit = 2 ^ 45 := rfl
  induction bs generalizing s with
  | nil => simp [execSeq]
  | cons b bs ih =>
    simp only [List.length_cons] at hl
    simp only [List.map_cons, execSeq]
    rw [exec_effect (i := .add c b) (by simpa [failsPrecond] using hp) (reachesLimit_eq_false (by omega))]
    have hlen : (absorb (s.H c) b).len.toNat = (s.H c).len.toNat + 1 := by
      simp only [absorb_len, BitVec.toNat_add]; simp; omega
    dsimp only [effect]
    rw [ih]
    · simp
    · simpa using hp
    · simp only [State.setH_H]; omega

/-- KB after key bytes arrive from index `n` on (42_hmac.md R173). -/
def storeKeyBytes (KB : Block) : Nat → List Byte → Block
  | _, [] => KB
  | n, k :: ks => storeKeyBytes (if room : n < 64 then KB.set n k room else KB) (n + 1) ks

/-- KADDs on an Accumulating KH with room absorb their bytes in order and store them in KB. -/
theorem execSeq_kadds (k : List Byte) (s : State) (hp : s.KH.phase = .accumulating)
    (hl : s.KH.len.toNat + k.length < Config.lenLimit) :
    execSeq (k.map .kadd) s =
      .next { s with KH := absorbBytes s.KH k, KB := storeKeyBytes s.KB s.KH.len.toNat k } := by
  have hL : Config.lenLimit = 2 ^ 45 := rfl
  induction k generalizing s with
  | nil => rfl
  | cons b bs ih =>
    simp only [List.length_cons] at hl
    simp only [List.map_cons, execSeq]
    rw [exec_effect (i := .kadd b) (by simpa [failsPrecond] using hp) (reachesLimit_eq_false (by omega))]
    have hlen : (absorb s.KH b).len.toNat = s.KH.len.toNat + 1 := by
      simp only [absorb_len, BitVec.toNat_add]; simp; omega
    dsimp only [effect]
    rw [ih]
    · simp only [absorbBytes_cons, storeKeyBytes, storeKeyByte, hlen]
    · simpa using hp
    · dsimp only; omega

/-! ## Finalizing a context that started fresh -/

theorem padding_length (n : Nat) : (padding n).length = 9 + padZeros n := by
  simp [padding, be64Bytes]; omega

/-- The padding of a message is the padding of the bytes it leaves held, with its own length suffix. -/
theorem padding_eq (n : Nat) :
    padding n = 0x80 :: (List.replicate (padZeros (n % 64)) 0x00 ++ lengthSuffix (0 + BitVec.ofNat 64 n)) := by
  have h : padZeros (n % 64) = padZeros n := by unfold padZeros; omega
  rw [h, padding, lengthSuffix]
  congr 3
  apply BitVec.eq_of_toNat_eq
  simp [BitVec.toNat_mul, Nat.mul_comm]

/-- **Finalize on a context that absorbed `m` from a fresh start gives SHA-256 of `m`.** -/
theorem finalize_absorbBytes_freshen (C : Context) (m : List Byte) :
    (finalize (absorbBytes (freshen C) m)).h = sha256 m := by
  have hf : (absorbBytes (freshen C) m).fill.val = m.length % 64 := by
    rw [absorbBytes_eq]; dsimp only; rw [putBytes_fill]; simp
  have hl : (absorbBytes (freshen C) m).len = 0 + BitVec.ofNat 64 m.length := by rw [absorbBytes_eq]; rfl
  rw [finalize_eq, hf, hl, ← padding_eq]
  dsimp only
  rw [absorbBytes_eq, putBytes_withLen]
  dsimp only
  rw [← putBytes_append, (putBytes_blocks _ _).1, heldBytes_of_fill_zero (by simp)]
  have e : ((freshen C).fill.val + (m ++ padding m.length).length) / 64 = (m.length + 8) / 64 + 1 := by
    rw [List.length_append, padding_length]
    have z : (freshen C).fill.val = 0 := rfl
    unfold padZeros
    omega
  rw [e]; rfl

/-! ## The HMAC key -/

@[simp] theorem digestBytes_length (h : HashState) : (digestBytes h).length = 32 := by
  simp [digestBytes, wordBytes, List.length_flatMap]

@[simp] theorem keyBlockK0_length (KH : Context) (KB : Block) : (keyBlockK0 KH KB).length = 64 := by
  unfold keyBlockK0; split
  · simp
  · simp; omega

@[simp] theorem settleKey_len (C : Context) : (settleKey C).len = C.len := by unfold settleKey; split <;> simp

/-- `settleKey` leaves KH Finalized or as it was; either way a second call does nothing. -/
theorem settleKey_settleKey (C : Context) : settleKey (settleKey C) = settleKey C := by
  by_cases h : 64 < C.len.toNat ∧ C.phase = .accumulating
  · have e : settleKey C = finalize C := if_pos h
    rw [e]
    refine if_neg ?_
    rw [finalize_phase]; rintro ⟨_, k⟩; cases k
  · have e : settleKey C = C := if_neg h
    rw [e, e]

theorem storeKeyByte_getElem (KB : Block) (len : BitVec 64) (b : Byte) (i : Fin 64) :
    (storeKeyByte KB len b)[i] = if len.toNat = i.val then b else KB[i] := by
  unfold storeKeyByte
  split
  · simp [Vector.getElem_set]
  · rw [if_neg (by omega)]

/-- Up to 64 key bytes stored from index `n` on follow the `n` bytes before them. -/
theorem storeKeyBytes_take (KB : Block) (n : Nat) (k : List Byte) (h : n + k.length ≤ 64) :
    (storeKeyBytes KB n k).toList.take (n + k.length) = KB.toList.take n ++ k := by
  induction k generalizing KB n with
  | nil => simp [storeKeyBytes]
  | cons b bs ih =>
    simp only [List.length_cons] at h
    have hn : n < 64 := by omega
    simp only [storeKeyBytes, dif_pos hn, List.length_cons]
    have := ih (KB.set n b hn) (n + 1) (by omega)
    rw [show n + (bs.length + 1) = n + 1 + bs.length by omega, this]
    rw [Vector.toList_set, List.take_add_one, List.take_set_of_le (Nat.le_refl _)]
    simp [hn]

/-- The K0 that HSTART derives from a key fed after a fresh start is the K0 of that key (42_hmac.md R171). -/
theorem keyBlockK0_eq_hmacK0 (C : Context) (KB : Block) (k : List Byte) (hl : k.length < Config.lenLimit) :
    keyBlockK0 (settleKey (absorbBytes (freshen C) k)) (storeKeyBytes KB 0 k) = hmacK0 k := by
  have hL : Config.lenLimit = 2 ^ 45 := rfl
  have hlen : (absorbBytes (freshen C) k).len.toNat = k.length := by
    rw [absorbBytes_eq]; simp only [BitVec.toNat_add, freshen_len]; simp; omega
  have hph : (absorbBytes (freshen C) k).phase = .accumulating := by rw [absorbBytes_eq]; simp
  unfold settleKey hmacK0
  by_cases h : 64 < k.length
  · rw [if_pos ⟨by omega, hph⟩, if_pos h]
    unfold keyBlockK0
    rw [finalize_len, if_pos (by omega), finalize_absorbBytes_freshen]
  · rw [if_neg (by omega), if_neg h]
    unfold keyBlockK0
    rw [if_neg (by omega), hlen]
    have := storeKeyBytes_take KB 0 k (by omega)
    simp only [Nat.zero_add, List.take_zero, List.nil_append] at this
    rw [this]

end Sys2Proof.Machine
end

