-- ==== Sys2Proof/Tests/Slice0.lean ====
section
/-! SUPPORT. Tests of the model. Expected values come from the spec: the worked examples of its rules and the vectors V1 to V53 of
95_test_vectors.md, named in each docstring. -/

namespace Sys2Proof.Tests

open Sys2Proof.Machine

/-! ## Helpers -/

/-- The next state of an outcome, if it is one. -/
def nextOf : Result → Option State
  | .next s => some s
  | _ => none

/-- The fault of an outcome, if it is one. -/
def faultOf : Result → Option Fault
  | .fault f => some f
  | _ => none

/-- One field of the next state. -/
def look {α : Type} (f : State → α) (r : Result) : Option α := (nextOf r).map f

/-- A fresh context that has absorbed some bytes. -/
def ctxWith (bs : List Byte) : Context := absorbBytes Context.reset bs

/-- A Finalized context of length `n`. -/
def finalizedCtx (n : Nat) : Context := { Context.reset with len := BitVec.ofNat 64 n, phase := .finalized }

/-- An Accumulating context of length `n` (`n` a multiple of 64 or the fill pointer given). -/
def lengthCtx (n : Nat) : Context := { Context.reset with len := BitVec.ofNat 64 n, fill := Fin.ofNat 64 n }

/-- The state after reset with the host about to do one thing. -/
def about (e : HostEvent) : State := { State.reset with pending := [e] }

/-! ## WellFormed: each check refuses an ill-formed term (30_encoding.md R82, R85, R86) -/

theorem test_op_zero_refused : (CmdFields.mk 0 0 0 0 0).opAssigned = false := by decide
theorem test_op_eight_refused : (CmdFields.mk 8 0 0 0 0).opAssigned = false := by decide
theorem test_rsv1_refused : (CmdFields.mk 2 1 0 0 0x61).reservedZero = false := by decide
theorem test_rsv0_refused : (CmdFields.mk 2 0 0 1 0x61).reservedZero = false := by decide
theorem test_unused_imm8_refused : (CmdFields.mk 1 0 0 0 1).unusedZero = false := by decide
theorem test_unused_ctx_refused : (CmdFields.mk 5 0 1 0 0xff).unusedZero = false := by decide
theorem test_wellFormed_refuses : (CmdFields.mk 4 0 1 0 0).wellFormed = false := by decide
theorem test_wellFormed_takes : (CmdFields.mk 2 0 1 0 0x61).wellFormed = true := by decide

/-! ## Decoding (95_test_vectors.md V40): words written out from the fields op, rsv1, ctx, rsv0, imm8 of 30_encoding.md R81 -/

theorem test_decode_init : decode 0b0001_000_1_0000000000000000_00000000 = .command (.init 1) := by decide
theorem test_decode_add : decode 0b0010_000_1_0000000000000000_01100001 = .command (.add 1 0x61) := by decide
theorem test_decode_final : decode 0b0011_000_0_0000000000000000_00000000 = .command (.final 0) := by decide
theorem test_decode_kinit : decode 0b0100_000_0_0000000000000000_00000000 = .command .kinit := by decide
theorem test_decode_kadd : decode 0b0101_000_0_0000000000000000_11111111 = .command (.kadd 0xff) := by decide
theorem test_decode_hstart : decode 0b0110_000_0_0000000000000000_00000000 = .command .hstart := by decide
theorem test_decode_hfinal : decode 0b0111_000_0_0000000000000000_00000000 = .command .hfinal := by decide

/-- V40, the rows that are Illegal. -/
theorem test_decode_illegal :
    decode 0x10000001 = .illegal .unusedField ∧ decode 0x22000061 = .illegal .reservedBits ∧
    decode 0x20000161 = .illegal .reservedBits ∧ decode 0x41000000 = .illegal .unusedField ∧
    decode 0x510000ff = .illegal .unusedField ∧ decode 0x60000001 = .illegal .unusedField ∧
    decode 0x00000000 = .illegal .unassignedOp ∧ decode 0x80000000 = .illegal .unassignedOp ∧
    decode 0xf0000000 = .illegal .unassignedOp ∧ decode 0xffffffff = .illegal .reservedBits := by decide

/-- V40, the rows that are commands, through the table's numbering. -/
theorem test_decodeTableWord :
    decodeTableWord 32 0x10000000 = some (.init 0) ∧ decodeTableWord 32 0x20000061 = some (.add 0 0x61) ∧
    decodeTableWord 32 0x31000000 = some (.final 1) ∧ decodeTableWord 32 0x40000000 = some .kinit ∧
    decodeTableWord 32 0x500000ff = some (.kadd 0xff) ∧ decodeTableWord 32 0x60000000 = some .hstart ∧
    decodeTableWord 32 0x70000000 = some .hfinal ∧ decodeTableWord 32 0 = none := by decide

/-- 30_encoding.md R90: `ADD 1, 'a'` is 0x21000061. -/
theorem test_encode_add : encode (.add 1 0x61) = 0x21000061 := by decide

/-! ## The compression engine (95_test_vectors.md V10, V20, V21) -/

theorem test_rotr_shr : rotr 1 1 = 0x80000000 ∧ shr 0x80000000 3 = 0x10000000 := by decide
theorem test_smallSigma0 : smallSigma0 1 = 0x02004000 ∧ smallSigma0 0xffffffff = 0x1fffffff := by decide
theorem test_smallSigma1 : smallSigma1 1 = 0x0000a000 ∧ smallSigma1 0xffffffff = 0x003fffff := by decide
theorem test_bigSigma0 : bigSigma0 1 = 0x40080400 ∧ bigSigma0 0xffffffff = 0xffffffff := by decide
theorem test_bigSigma1 : bigSigma1 1 = 0x04200080 ∧ bigSigma1 0xffffffff = 0xffffffff := by decide
theorem test_ch : ch 0x0000ffff 0x12345678 0x9abcdef0 = 0x9abc5678 := by decide
theorem test_maj : maj 0x0f0f0f0f 0x00ff00ff 0x0000ffff = 0x000f0fff := by decide

/-- The block of the message "abc" (V2). -/
def abcBlock : Block := blockOf ([0x61, 0x62, 0x63, 0x80] ++ List.replicate 59 0x00 ++ [0x18])

/-- V20. -/
theorem test_schedule_abc :
    (schedule abcBlock).getD 0 0 = 0x61626380 ∧ (schedule abcBlock).getD 17 0 = 0x000f0000 ∧
    (schedule abcBlock).getD 63 0 = 0x12b1edeb := by decide +kernel

/-- V21, round 0. -/
theorem test_round_abc :
    compressRound (schedule abcBlock) (WorkVars.start initialVector) 0 =
      ⟨0x5d6aebcd, 0x6a09e667, 0xbb67ae85, 0x3c6ef372, 0xfa2a4622, 0x510e527f, 0x9b05688c, 0x1f83d9ab⟩ := by decide

/-- V2, V21: `compress(IV, "abc" padded)`. -/
theorem test_compress_abc :
    compress initialVector abcBlock =
      #v[0xba7816bf, 0x8f01cfea, 0x414140de, 0x5dae2223, 0xb00361a3, 0x96177a9c, 0xb410ff61, 0xf20015ad] := by decide +kernel

/-! ## The commands, one step each -/

/-- R145: INIT on a Finalized context makes it fresh. -/
theorem test_init_fresh :
    look (fun s => (s.H1.phase, s.H1.h, s.H1.len)) (exec (.init 1) { State.reset with H1 := finalizedCtx 5 }) =
      some (.accumulating, initialVector, 0) := by decide

/-- R146: `INIT 0; ADD 0, 'a'` gives buf[0] = 0x61, FILL = 1, LEN0 = 1, h = IV. -/
theorem test_add_first :
    look (fun s => (s.H0.buf[0], s.fillWord, s.H0.lenLo, s.H0.h)) (exec (.add 0 0x61) State.reset) =
      some (0x61, 1, 1, initialVector) := by decide

/-- V41: PRECOND comes before LENGTH. -/
theorem test_add_precond_first :
    look (fun s => (s.err, s.errcmd)) (exec (.add 0 0x41) { State.reset with H0 := finalizedCtx (Config.lenLimit - 1) }) =
      some (.precond, 0x20000041) := by decide

/-- V41: at LEN_LIMIT - 1 the byte is refused and nothing else changes. -/
theorem test_add_length :
    look (fun s => (s.err, s.errcmd, s.H0)) (exec (.add 0 0x41) { State.reset with H0 := lengthCtx (Config.lenLimit - 1) }) =
      some (.length, 0x20000041, lengthCtx (Config.lenLimit - 1)) := by decide

/-- V1: FINAL right after reset gives the empty digest. -/
theorem test_final_empty :
    look (fun s => (s.H0.h, s.statusWord, s.fillWord)) (exec (.final 0) State.reset) =
      some (#v[0xe3b0c442, 0x98fc1c14, 0x9afbf4c8, 0x996fb924, 0x27ae41e4, 0x649b934c, 0xa495991b, 0x7852b855], 1, 0) := by
  decide +kernel

/-- V3 row 56, P5: 56 bytes of 'a' take two blocks of padding. -/
theorem test_final_two_blocks :
    look (fun s => (s.H1.h, s.H1.len)) (exec (.final 1) { State.reset with H1 := ctxWith (List.replicate 56 0x61) }) =
      some (#v[0xb35439a4, 0xac6f0948, 0xb6d6f9e3, 0xc6af0f5f, 0x590ce20f, 0x1bde7090, 0xef797068, 0x6ec6738a], 56) := by
  decide +kernel

/-- R172: KINIT empties the key and leaves KB. -/
theorem test_kinit :
    look (fun s => (s.KH.len, s.statusWord, s.KB[0])) (exec .kinit
      { State.reset with KH := finalizedCtx 65, KB := Vector.replicate 64 0xaa }) = some (0, 0, 0xaa) := by decide

/-- R173: `KINIT; KADD 0x0b` gives KB[0] = 0x0b, LENK_LO = 1. -/
theorem test_kadd_first :
    look (fun s => (s.KB[0], s.KH.lenLo)) (exec (.kadd 0x0b) State.reset) = some (0x0b, 1) := by decide

/-- V41: KADD on a hashed long key is PRECOND; STATUS = 0x204. -/
theorem test_kadd_precond :
    look (fun s => (s.statusWord, s.errcmd)) (exec (.kadd 0x01) { State.reset with KH := finalizedCtx 65 }) =
      some (0x204, 0x50000001) := by decide

/-- The state with the key of RFC 4231 case 1, 0x0b twenty times, in KH and KB. -/
def keyState : State :=
  { State.reset with
    KH := ctxWith (List.replicate 20 0x0b), KB := blockOf (List.replicate 20 0x0b ++ List.replicate 44 0xee) }

/-- V50: the hash states after HSTART. -/
theorem test_hstart_short :
    look (fun s => (s.H0.h, s.H1.h)) (exec .hstart keyState) =
      some (#v[0x2bb21804, 0x23b95bf9, 0xb4e8258c, 0xfab5e654, 0x11f2921e, 0x4feb78ee, 0x9890e5fe, 0x64b78036],
            #v[0x27e7739f, 0xd9562583, 0x56d666e2, 0x5f810de8, 0xec5e4f8a, 0x553d4fb8, 0x3cff20ba, 0x10234b40]) := by
  decide +kernel

/-- P4: HSTART hashes a key of 131 bytes 0xaa; DIGESTK is its SHA-256. -/
theorem test_hstart_long :
    look (fun s => (s.KH.h, s.KH.phase)) (exec .hstart { State.reset with KH := ctxWith (List.replicate 131 0xaa) }) =
      some (#v[0x45ad4b37, 0xc6e2fc0a, 0x2cfcc1b5, 0xda524132, 0xec707615, 0xc2cae1db, 0xbc43c97a, 0xa521db81], .finalized) := by
  decide +kernel

/-- V52: empty key and empty message, from the state HSTART leaves after reset. -/
theorem test_hfinal_empty :
    look (fun s => (s.H1.h, s.statusWord)) (exec .hfinal ((nextOf (exec .hstart State.reset)).getD State.reset)) =
      some (#v[0xb613679a, 0x0814d9ec, 0x772f95d7, 0x78c35fc5, 0xff1697c4, 0x93715653, 0xc6c71214, 0x4292c5ad], 3) := by
  decide +kernel

/-- V41: HFINAL with H[1] Finalized raises PRECOND and does not finalize H[0]. -/
theorem test_hfinal_precond :
    look (fun s => (s.err, s.errcmd, s.H0.phase)) (exec .hfinal { State.reset with H1 := finalizedCtx 0 }) =
      some (.precond, 0x70000000, .accumulating) := by decide

/-! ## The register window and the CMD write -/

/-- V41: the all-zero word right after reset. -/
theorem test_step_illegal : look (fun s => (s.statusWord, s.errcmd)) (step (about (writeCmd 0))) = some (0x100, 0) := by
  decide

/-- V41: a halted core ignores INIT. -/
theorem test_step_halted :
    look (fun s => (s.H0, s.err)) (step { State.reset with
      H0 := finalizedCtx 3, err := .precond, pending := [writeCmd 0x10000000] }) =
      some (finalizedCtx 3, .precond) := by decide

/-- V41: RegRead(0x000) is BadAccess; RegRead(0x040) after reset is ReadBeforeFinal. -/
theorem test_read_faults :
    faultOf (step (about (.read .w32 0x00))) = some .badAccess ∧
    faultOf (step (about (.read .w32 0x40))) = some .readBeforeFinal := by decide

/-- 20_memory.md R51: offset 0x07C is DIGEST1[7]; offset 0x028 is reserved. -/
theorem test_read_map :
    look (·.replies) (step { State.reset with
      H1 := { finalizedCtx 3 with h := #v[0, 1, 2, 3, 4, 5, 6, 7] }, pending := [.read .w32 0x7C] }) = some [7] ∧
    faultOf (step (about (.read .w32 0x28))) = some .badAccess := by decide

/-- P2: FILL = 0x00140000 with twenty key bytes in KH. -/
theorem test_fill_word : keyState.fillWord = 0x00140000 := by decide

/-- R230: the reset event leaves the halted state. -/
theorem test_reset_event :
    look (fun s => (s.err, s.errcmd, s.H0.phase)) (step { State.reset with
      H0 := finalizedCtx 3, err := .precond, errcmd := 0x30000000, pending := [.reset] }) =
      some (.none, 0, .accumulating) := by decide

/-- A table word placed by `withFetchWord` is the command the next step runs. -/
theorem test_withFetchWord : look (fun s => s.H1.lenLo) (step (State.reset.withFetchWord 32 0x21000061)) = some 1 := by
  decide

/-- 20_memory.md R50: the last byte of the window is offset 0xFF, the address after it is outside. -/
theorem test_windowOffset : windowOffset 0x4000 0x40ff = some 0xff ∧ windowOffset 0x4000 0x4100 = none := by decide

/-! ## The assembler (30_encoding.md R90, R91) -/

theorem test_assemble_add : (assembleLine "ADD 1, 'a'") = some [writeCmd 0x21000061] := by decide
theorem test_assemble_hex : (assembleLine "KADD 0xff") = some [writeCmd 0x500000ff] := by decide
theorem test_assemble_sha :
    assembleLine "SHA 0, \"ab\"" =
      some [writeCmd 0x10000000, writeCmd 0x20000061, writeCmd 0x20000062, writeCmd 0x30000000] := by decide
theorem test_assemble_hmac :
    assembleLine "HMAC [0x0b], \"H\"" =
      some [writeCmd 0x40000000, writeCmd 0x5000000b, writeCmd 0x60000000, writeCmd 0x20000048, writeCmd 0x70000000] := by
  decide

/-- R90, R91: the literals of a comma, a bracket and a quote are items of a byte list; the empty list of assumption 22. -/
theorem test_assemble_list_literals :
    assembleLine "ADDS 0, [',', ']', ''', 0x61]" =
      some [writeCmd 0x2000002c, writeCmd 0x2000005d, writeCmd 0x20000027, writeCmd 0x20000061] ∧
    assembleLine "KADDS []" = some [] := by decide +kernel

/-- 42_hmac.md R175, its example: the key is twenty bytes 0x0b. -/
theorem test_assemble_repeat :
    assemblePseudo "HMAC [0x0b x 20], \"Hi There\"".toList =
      some (.hmac (List.replicate 20 0x0b) (utf8Bytes "Hi There".toList)) := by decide +kernel

/-! ## The reference functions (95_test_vectors.md V2, V4) -/

theorem test_sha256_abc :
    sha256 [0x61, 0x62, 0x63] =
      #v[0xba7816bf, 0x8f01cfea, 0x414140de, 0x5dae2223, 0xb00361a3, 0x96177a9c, 0xb410ff61, 0xf20015ad] := by decide +kernel

theorem test_hmac_case1 :
    hmacSha256 (List.replicate 20 0x0b) (utf8Bytes "Hi There".toList) =
      #v[0xb0344c61, 0xd8db3853, 0x5ca8afce, 0xaf0bf12b, 0x881dc200, 0xc9833da7, 0x26e9376c, 0x2e32cff7] := by decide +kernel

end Sys2Proof.Tests
end

