-- ==== Sys2Proof/Tests/Witnesses.lean ====
section
/-! SUPPORT. For each statement with hypotheses, a concrete state and operands that meet all of them together; for a statement of
several clauses, one for each clause, at the boundary values of its range. A witness is named after its statement. -/

namespace Sys2Proof.Tests

open Sys2Proof.Machine

/-- The state after reset with `C` in the context of that name. -/
def withCtx (n : CtxName) (C : Context) : State :=
  match n with
  | .H0 => { State.reset with H0 := C }
  | .H1 => { State.reset with H1 := C }
  | .KH => { State.reset with KH := C }

/-- A halted state with the host about to do one thing. -/
def haltedAbout (e : HostEvent) : State := { about e with err := .precond, errcmd := 0x30000000 }

/-! ## Encoding and the step -/

theorem witness_EncodeOfDecode : decode 0x21000061 = .command (.add 1 0x61) := by decide

theorem witness_StepRunsDecodedCommand :
    (about (.write .w32 0x00 0x70000000)).pending = [.write .w32 0x00 0x70000000] ∧
    (about (.write .w32 0x00 0x70000000)).err = .none ∧ decode 0x70000000 = .command .hfinal := by decide

theorem witness_IllegalWordRaisesIllegalCmd :
    (about (.write .w32 0x00 0x80000000)).pending = [.write .w32 0x00 0x80000000] ∧
    (about (.write .w32 0x00 0x80000000)).err = .none ∧ (splitFields 0x80000000).wellFormed = false := by decide

theorem witness_HaltedCoreIgnoresCmdWrites_write :
    (haltedAbout (.write .w32 0x00 0x10000000)).pending = [.write .w32 0x00 0x10000000] ∧
    (haltedAbout (.write .w32 0x00 0x10000000)).err ≠ .none := by decide

theorem witness_HaltedCoreIgnoresCmdWrites_read :
    (haltedAbout (.read .w32 0x0C)).pending = [.read .w32 0x0C] ∧ (haltedAbout (.read .w32 0x0C)).err ≠ .none ∧
    readable (haltedAbout (.read .w32 0x0C)) .w32 0x0C := by
  refine ⟨by decide, by decide, ⟨rfl, by decide, by decide⟩, by decide⟩

theorem witness_OnlyResetLeavesHalt_other :
    (haltedAbout (.read .w32 0x0C)).pending = [.read .w32 0x0C] ∧ (haltedAbout (.read .w32 0x0C)).err ≠ .none ∧
    HostEvent.read .w32 0x0C ≠ .reset ∧
    step (haltedAbout (.read .w32 0x0C)) =
      .next { haltedAbout (.read .w32 0x0C) with pending := [], replies := [0x30000000] } := by
  refine ⟨by decide, by decide, by decide, rfl⟩

theorem witness_OnlyResetLeavesHalt_latchWrites :
    (haltedAbout (.write .w32 0x04 0)).pending = [.write .w32 0x04 0] ∧
    (haltedAbout (.write .w32 0x0C 0)).pending = [.write .w32 0x0C 0] := by decide

theorem witness_OnlyResetLeavesHalt_reset : (haltedAbout .reset).pending = [.reset] := by decide

theorem witness_EveryCmdWriteCompletes :
    (haltedAbout (.write .w32 0x00 0xffffffff)).pending = [.write .w32 0x00 0xffffffff] := by decide

/-- Reads: CMD, the reserved offsets next to the mapped ranges, a misaligned offset, another width. -/
theorem witness_UnadmittedAccess_reads :
    (about (.read .w8 0x04)).pending = [.read .w8 0x04] ∧
    ¬ readAdmitted .w32 0x00 ∧ ¬ readAdmitted .w32 0x28 ∧ ¬ readAdmitted .w32 0x3C ∧ ¬ readAdmitted .w32 0xA0 ∧
    ¬ readAdmitted .w32 0xFC ∧ ¬ readAdmitted .w32 0x06 ∧ ¬ readAdmitted .w8 0x04 := by
  refine ⟨by decide, ?_, ?_, ?_, ?_, ?_, ?_, ?_⟩ <;> unfold readAdmitted <;> decide

/-- Writes: a register other than CMD, the first byte after CMD, another width. -/
theorem witness_UnadmittedAccess_writes :
    (about (.write .w16 0x00 0x10000000)).pending = [.write .w16 0x00 0x10000000] ∧
    ¬ writeAdmitted .w16 0x00 ∧ ¬ writeAdmitted .w32 0x04 ∧ ¬ writeAdmitted .w32 0x01 := by
  refine ⟨by decide, ?_, ?_, ?_⟩ <;> unfold writeAdmitted <;> decide

/-- The first and the last offset of each readable range; and a digest register of an Accumulating context. -/
theorem witness_ReadsHaveNoSideEffects :
    readable State.reset .w32 0x04 ∧ readable State.reset .w32 0x24 ∧
    readable (withCtx .H0 (finalizedCtx 3)) .w32 0x40 ∧ readable (withCtx .KH (finalizedCtx 65)) .w32 0x9C ∧
    readAdmitted .w32 0x5C ∧ ¬ readable State.reset .w32 0x5C := by
  refine ⟨⟨⟨rfl, by decide, by decide⟩, by decide⟩, ⟨⟨rfl, by decide, by decide⟩, by decide⟩,
    ⟨⟨rfl, by decide, by decide⟩, fun _ => by decide⟩, ⟨⟨rfl, by decide, by decide⟩, fun _ => by decide⟩,
    ⟨rfl, by decide, by decide⟩, fun h => ?_⟩
  have := h.2 (by decide)
  revert this; decide

theorem witness_StatusRegisterReads :
    (about (.read .w32 0x04)).pending = [.read .w32 0x04] ∧ (about (.write .w32 0x04 1)).pending = [.write .w32 0x04 1] := by
  decide

theorem witness_FillRegisterReads :
    (about (.read .w32 0x08)).pending = [.read .w32 0x08] ∧ (about (.write .w32 0x08 0)).pending = [.write .w32 0x08 0] := by
  decide

theorem witness_LengthRegistersRead :
    (0x20 : BitVec 8) = (match CtxName.KH with | .H0 => 0x10 | .H1 => 0x18 | .KH => 0x20) := by decide

theorem witness_ErrcmdRegisterReads : (about (.read .w32 0x0C)).pending = [.read .w32 0x0C] := by decide

/-- The first and the last digest register of each context. -/
theorem witness_DigestRegistersRead_offsets :
    (0x40 : BitVec 8).toNat = (match CtxName.H0 with | .H0 => 0x40 | .H1 => 0x60 | .KH => 0x80) + 4 * (0 : Fin 8).val ∧
    (0x5C : BitVec 8).toNat = (match CtxName.H0 with | .H0 => 0x40 | .H1 => 0x60 | .KH => 0x80) + 4 * (7 : Fin 8).val ∧
    (0x60 : BitVec 8).toNat = (match CtxName.H1 with | .H0 => 0x40 | .H1 => 0x60 | .KH => 0x80) + 4 * (0 : Fin 8).val ∧
    (0x7C : BitVec 8).toNat = (match CtxName.H1 with | .H0 => 0x40 | .H1 => 0x60 | .KH => 0x80) + 4 * (7 : Fin 8).val ∧
    (0x80 : BitVec 8).toNat = (match CtxName.KH with | .H0 => 0x40 | .H1 => 0x60 | .KH => 0x80) + 4 * (0 : Fin 8).val ∧
    (0x9C : BitVec 8).toNat = (match CtxName.KH with | .H0 => 0x40 | .H1 => 0x60 | .KH => 0x80) + 4 * (7 : Fin 8).val := by
  decide

/-- DIGEST1[7], at 0x07C: a read of a Finalized H[1], a read after reset, a write. -/
theorem witness_DigestRegistersRead :
    ({ withCtx .H1 (finalizedCtx 3) with pending := [.read .w32 0x7C] } : State).pending = [.read .w32 0x7C] ∧
    (({ withCtx .H1 (finalizedCtx 3) with pending := [.read .w32 0x7C] } : State).ctx .H1).phase = .finalized ∧
    (about (.read .w32 0x7C)).pending = [.read .w32 0x7C] ∧ ((about (.read .w32 0x7C)).ctx .H1).phase = .accumulating ∧
    (about (.write .w32 0x7C 0)).pending = [.write .w32 0x7C 0] := by decide

theorem witness_IdleBlockHoldsState : State.reset.pending = [] := rfl

theorem witness_ResetEventRestoresState : (haltedAbout .reset).pending = [.reset] := by decide

/-! ## INIT, ADD, FINAL -/

/-- A byte that leaves room, the byte that fills the block, and the last byte below the ceiling. -/
theorem witness_AddAbsorbsOneByte :
    (State.reset.H 0).phase = .accumulating ∧ (State.reset.H 0).len.toNat + 1 < Config.lenLimit ∧ (State.reset.H 0).fill.val < 63 ∧
    ((withCtx .H1 (lengthCtx 63)).H 1).phase = .accumulating ∧
    ((withCtx .H1 (lengthCtx 63)).H 1).len.toNat + 1 < Config.lenLimit ∧ ((withCtx .H1 (lengthCtx 63)).H 1).fill.val = 63 ∧
    ((withCtx .H0 (lengthCtx (Config.lenLimit - 2))).H 0).phase = .accumulating ∧
    ((withCtx .H0 (lengthCtx (Config.lenLimit - 2))).H 0).len.toNat + 1 < Config.lenLimit := by decide

/-- 0, 55, 56 and 63 bytes held. -/
theorem witness_FinalPadsAndFinalizes :
    (State.reset.H 0).phase = .accumulating ∧ (State.reset.H 0).fill.val ≤ 55 ∧
    ((withCtx .H0 (lengthCtx 55)).H 0).phase = .accumulating ∧ ((withCtx .H0 (lengthCtx 55)).H 0).fill.val ≤ 55 ∧
    ((withCtx .H1 (lengthCtx 56)).H 1).phase = .accumulating ∧ 56 ≤ ((withCtx .H1 (lengthCtx 56)).H 1).fill.val ∧
    ((withCtx .H1 (lengthCtx 63)).H 1).phase = .accumulating ∧ 56 ≤ ((withCtx .H1 (lengthCtx 63)).H 1).fill.val := by
  decide

theorem witness_LengthSuffixIsBigEndianBitCount : Config.lenLimit - 1 < Config.lenLimit ∧ 0 < 8 ∧ 7 < 8 := by decide

/-! ## KINIT, KADD, HSTART, HFINAL -/

/-- Key bytes 0, 63 and 64, and the last byte below the ceiling. -/
theorem witness_KaddAppendsKeyByte :
    State.reset.KH.phase = .accumulating ∧ State.reset.KH.len.toNat + 1 < Config.lenLimit ∧ State.reset.KH.fill.val < 63 ∧
    (withCtx .KH (lengthCtx 63)).KH.phase = .accumulating ∧ (withCtx .KH (lengthCtx 63)).KH.len.toNat + 1 < Config.lenLimit ∧
    (withCtx .KH (lengthCtx 63)).KH.fill.val = 63 ∧
    (withCtx .KH (lengthCtx 64)).KH.phase = .accumulating ∧ (withCtx .KH (lengthCtx 64)).KH.len.toNat + 1 < Config.lenLimit ∧
    (withCtx .KH (lengthCtx (Config.lenLimit - 2))).KH.len.toNat + 1 < Config.lenLimit := by decide

/-- The empty key and a key of 64 bytes. -/
theorem witness_HstartWithShortKey :
    State.reset.KH.len.toNat ≤ 64 ∧ (withCtx .KH (lengthCtx 64)).KH.len.toNat ≤ 64 := by decide

/-- A key of 65 bytes, not hashed yet and hashed. The third premise is met by the state with KH in H[0]. -/
theorem witness_HstartWithLongKey :
    64 < (withCtx .KH (lengthCtx 65)).KH.len.toNat ∧ (withCtx .KH (lengthCtx 65)).KH.phase = .accumulating ∧
    (withCtx .H0 (lengthCtx 65)).H0 = (withCtx .KH (lengthCtx 65)).KH ∧
    64 < (withCtx .KH (finalizedCtx 65)).KH.len.toNat ∧ (withCtx .KH (finalizedCtx 65)).KH.phase = .finalized := by
  decide

theorem witness_HstartIsInitsThenAdds : keyState.KH.len.toNat ≤ 64 := by decide

/-- After reset, and with room for exactly 32 bytes in H[1]. -/
theorem witness_HfinalCompletesHmac :
    State.reset.H0.phase = .accumulating ∧ State.reset.H1.phase = .accumulating ∧
    State.reset.H1.len.toNat + 32 < Config.lenLimit ∧
    (withCtx .H1 (lengthCtx (Config.lenLimit - 33))).H0.phase = .accumulating ∧
    (withCtx .H1 (lengthCtx (Config.lenLimit - 33))).H1.phase = .accumulating ∧
    (withCtx .H1 (lengthCtx (Config.lenLimit - 33))).H1.len.toNat + 32 < Config.lenLimit := by decide

theorem witness_HfinalIsFinalAddsFinal :
    State.reset.H0.phase = .accumulating ∧ State.reset.H1.phase = .accumulating ∧
    State.reset.H1.len.toNat + 32 < Config.lenLimit ∧ ∃ u, exec (.final 0) State.reset = .next u :=
  ⟨by decide, by decide, by decide, exec_completes _ _⟩

/-! ## Errors -/

/-- Each condition once, also at the ceiling; and an ADD that raises PRECOND on a running core. -/
theorem witness_PrecondErrors :
    ((withCtx .H0 (finalizedCtx (Config.lenLimit - 1))).H 0).phase = .finalized ∧
    ((withCtx .H1 (finalizedCtx 0)).H 1).phase = .finalized ∧ (withCtx .KH (finalizedCtx 65)).KH.phase = .finalized ∧
    (withCtx .H0 (finalizedCtx 64)).H0.phase = .finalized ∧ (withCtx .H1 (finalizedCtx 64)).H1.phase = .finalized ∧
    (withCtx .H0 (finalizedCtx 3)).err = .none ∧
    ∃ t, exec (.add 0 0x61) (withCtx .H0 (finalizedCtx 3)) = .next t ∧ t.err = .precond :=
  ⟨by decide, by decide, by decide, by decide, by decide, rfl, _, exec_precond rfl, rfl⟩

/-- Each condition at the first length that meets it; and a KADD that raises LENGTH on a running core. -/
theorem witness_LengthErrors :
    ((withCtx .H1 (lengthCtx (Config.lenLimit - 1))).H 1).phase = .accumulating ∧
    Config.lenLimit ≤ ((withCtx .H1 (lengthCtx (Config.lenLimit - 1))).H 1).len.toNat + 1 ∧
    (withCtx .KH (lengthCtx (Config.lenLimit - 1))).KH.phase = .accumulating ∧
    Config.lenLimit ≤ (withCtx .KH (lengthCtx (Config.lenLimit - 1))).KH.len.toNat + 1 ∧
    (withCtx .H1 (lengthCtx (Config.lenLimit - 32))).H0.phase = .accumulating ∧
    (withCtx .H1 (lengthCtx (Config.lenLimit - 32))).H1.phase = .accumulating ∧
    Config.lenLimit ≤ (withCtx .H1 (lengthCtx (Config.lenLimit - 32))).H1.len.toNat + 32 ∧
    (withCtx .KH (lengthCtx (Config.lenLimit - 1))).err = .none ∧
    ∃ t, exec (.kadd 0x61) (withCtx .KH (lengthCtx (Config.lenLimit - 1))) = .next t ∧ t.err = .length :=
  ⟨by decide, by decide, by decide, by decide, by decide, by decide, by decide, rfl, _, exec_length rfl (by decide), rfl⟩

/-! ## The compression engine: the ends of each range -/

theorem witness_BitFunctionsBitwise : 1 ≤ 1 ∧ 1 ≤ 31 ∧ 31 ≤ 31 ∧ 0 < 32 ∧ 31 < 32 := by decide

theorem witness_ScheduleMeetsRecurrence : 0 < 16 ∧ 15 < 16 ∧ 16 ≤ 16 ∧ 16 < 64 ∧ 16 ≤ 63 ∧ 63 < 64 := by decide

theorem witness_CompressRunsSixtyFourRounds : 0 < 64 ∧ 63 < 64 := by decide

theorem witness_DigestBytesAreBigEndian : 0 < 4 ∧ 3 < 4 := by decide

/-! ## Whole-machine rules -/

/-- A context that absorbed bytes and a Finalized one meet the invariants. -/
theorem witness_ctxInv : (lengthCtx 70).Inv ∧ (finalizedCtx 65).Inv :=
  ⟨⟨by decide, by decide, by decide⟩, ⟨by decide, by decide, by decide⟩⟩

/-- A state in the middle of an HMAC with a long key, about to write a command; its step answers a next state. -/
theorem witness_StepKeepsInvariants :
    State.Inv { withCtx .KH (finalizedCtx 65) with H0 := lengthCtx 70, pending := [writeCmd 0x20000061] } ∧
    ∃ t, step { withCtx .KH (finalizedCtx 65) with H0 := lengthCtx 70, pending := [writeCmd 0x20000061] } = .next t := by
  refine ⟨⟨witness_ctxInv.1, ⟨by decide, by decide, by decide⟩, witness_ctxInv.2, by decide, by decide⟩, ?_⟩
  rw [step_writeCmd rfl, cmdWrite_running _ rfl]
  exact exec_completes (.add 0 0x61) _

/-- A context whose buffer differs above its fill pointer. -/
def staleCtx : Context := { Context.reset with buf := Vector.replicate 64 0xee }

/-- Two different states that agree but for stale bytes of a buffer and of the key block. -/
theorem witness_StaleBytesAreNeverObserved :
    State.reset.Agree { withCtx .H0 staleCtx with KB := Vector.replicate 64 0xee } ∧
    State.reset ≠ { withCtx .H0 staleCtx with KB := Vector.replicate 64 0xee } := by
  refine ⟨⟨⟨rfl, rfl, rfl, rfl, by decide⟩, .refl _, .refl _, by decide, rfl, rfl, rfl, rfl⟩, ?_⟩
  intro h
  have := congrArg (fun s : State => s.KB[0]) h
  revert this; decide

/-- FINAL on a Finalized context: the step answers a next state with an error latched. -/
theorem witness_ErrorEntryChangesOnlyTheLatch :
    ({ withCtx .H1 (finalizedCtx 0) with pending := [.write .w32 0x00 0x31000000] } : State).err = .none ∧
    ∃ t, step { withCtx .H1 (finalizedCtx 0) with pending := [.write .w32 0x00 0x31000000] } = .next t ∧ t.err ≠ .none :=
  ⟨rfl, _, rfl, by decide⟩

/-- KADD answers a next state, does not write H[0], and INIT is no KADD. -/
theorem witness_CommandsWriteOnlyTheirContexts :
    (∃ t, exec (.kadd 0x0b) State.reset = .next t) ∧ writesContext (.kadd 0x0b) .H0 = false ∧
    (∃ t, exec (.init 1) State.reset = .next t) ∧ ∀ b, Instr.init 1 ≠ .kadd b :=
  ⟨exec_completes _ _, by decide, exec_completes _ _, fun _ h => by cases h⟩

theorem witness_FinalizedContextIsFrozen :
    (∃ t, exec (.add 0 0x61) (withCtx .H0 (finalizedCtx 3)) = .next t) ∧
    ((withCtx .H0 (finalizedCtx 3)).ctx .H0).phase = .finalized := ⟨exec_completes _ _, by decide⟩

/-- ADD 0 then ADD 1, and KADD then ADD 0, after reset: both run without an error. -/
theorem witness_IndependentCommandsCommute :
    (State.reset.err = .none ∧ ∃ u t, exec (.add 0 0x61) State.reset = .next u ∧ u.err = .none ∧
      exec (.add 1 0x62) u = .next t ∧ t.err = .none) ∧
    (∃ u t, exec (.kadd 0x0b) State.reset = .next u ∧ u.err = .none ∧ exec (.add 0 0x61) u = .next t ∧ t.err = .none) := by
  refine ⟨⟨rfl, _, _, exec_effect (by decide) (by decide), rfl, exec_effect (by decide) (by decide), rfl⟩,
    _, _, exec_effect (by decide) (by decide), rfl, exec_effect (by decide) (by decide), rfl⟩

/-- The two ends of the parameter's range, at the highest length. -/
theorem witness_LimitParameterIsImmaterialBelowCeiling :
    2 ^ 45 ≤ 2 ^ 45 ∧ 2 ^ 45 ≤ 2 ^ 61 ∧ 2 ^ 61 ≤ 2 ^ 61 ∧ (lengthCtx (2 ^ 45 - 2)).len.toNat + 1 < 2 ^ 45 := by decide

/-! ## What the commands compute -/

/-- Lengths 55 and 56, and a number of zeros that fills whole blocks. -/
theorem witness_PaddingFillsWholeBlocks :
    55 % 64 ≤ 55 ∧ 56 ≤ 56 % 64 ∧ (55 + 1 + 0 + 8) % 64 = 0 ∧ (56 + 1 + 63 + 8) % 64 = 0 := by decide

theorem witness_SplittingDoesNotMatter :
    (([0x61, 0x62] : List Byte) ++ [0x63]).length < Config.lenLimit := by decide

theorem witness_HashCommandsComputeSha256 :
    State.reset.err = .none ∧ ([0x61, 0x62, 0x63] : List Byte).length < Config.lenLimit ∧
    ({ State.reset with pending := commandWrites (shaCommands 1 [0x61, 0x62, 0x63]) ++ [.reset] } : State).pending =
      commandWrites (shaCommands 1 [0x61, 0x62, 0x63]) ++ [.reset] := ⟨rfl, by decide, rfl⟩

theorem witness_HmacCommandsComputeHmac :
    State.reset.err = .none ∧ ([0x0b] : List Byte).length < Config.lenLimit ∧
    64 + ([0x48, 0x69] : List Byte).length < Config.lenLimit ∧
    ({ State.reset with pending := commandWrites (hmacCommands [0x0b] [0x48, 0x69]) ++ [] } : State).pending =
      commandWrites (hmacCommands [0x0b] [0x48, 0x69]) ++ [] := ⟨rfl, by decide, by decide, rfl⟩

theorem witness_KeyIsReusableAfterHmac :
    State.reset.err = .none ∧ ([0x0b] : List Byte).length < Config.lenLimit ∧
    64 + ([0x48, 0x69] : List Byte).length < Config.lenLimit ∧ 64 + ([] : List Byte).length < Config.lenLimit :=
  ⟨rfl, by decide, by decide, by decide⟩

/-- A key of 65 bytes. -/
theorem witness_LongKeyEqualsItsDigest :
    State.reset.err = .none ∧ 64 < (List.replicate 65 (0xaa : Byte)).length ∧
    (List.replicate 65 (0xaa : Byte)).length < Config.lenLimit ∧ 64 + ([0x48] : List Byte).length < Config.lenLimit :=
  ⟨rfl, by decide, by decide, by decide⟩

theorem witness_ResetLeavesContextsReady :
    ([0x61, 0x62, 0x63] : List Byte).length < Config.lenLimit ∧ ([0x0b] : List Byte).length < Config.lenLimit ∧
    64 + ([0x48, 0x69] : List Byte).length < Config.lenLimit := by decide

end Sys2Proof.Tests
end

section
/-! SUPPORT. The shared operations and the commands keep the invariants of 10_state.md R41. -/

namespace Sys2Proof.Machine

/-! ## Contexts -/

/-- A byte sequence that keeps a length below the ceiling adds to it without wrapping. -/
theorem absorbBytes_len_toNat {C : Context} {bs : List Byte} (h : C.len.toNat + bs.length < Config.lenLimit) :
    (absorbBytes C bs).len.toNat = C.len.toNat + bs.length := by
  have hL : Config.lenLimit = 2 ^ 45 := rfl
  rw [absorbBytes_eq, BitVec.toNat_add, BitVec.toNat_ofNat]
  omega

@[simp] theorem absorbBytes_phase (C : Context) (bs : List Byte) : (absorbBytes C bs).phase = C.phase := by
  rw [absorbBytes_eq, putBytes_phase]

theorem absorbBytes_fill (C : Context) (bs : List Byte) :
    (absorbBytes C bs).fill.val = (C.fill.val + bs.length) % 64 := by
  rw [absorbBytes_eq, putBytes_fill]

theorem reachesLimit_eq_false_iff {limit : Nat} {C : Context} {n : Nat} :
    reachesLimit limit C n = false ↔ C.len.toNat + n < limit := by
  simp [reachesLimit]

/-- A Finalized context needs an empty fill pointer and a length below the ceiling. -/
theorem Context.Inv.of_finalized {C : Context} (hp : C.phase = .finalized) (hf : C.fill.val = 0)
    (hl : C.len.toNat < Config.lenLimit) : C.Inv :=
  ⟨fun ha => absurd (hp.symm.trans ha) (by decide), fun _ => hf, hl⟩

/-- An Accumulating context needs its fill pointer at its length modulo 64 and a length below the ceiling. -/
theorem Context.Inv.of_accumulating {C : Context} (hp : C.phase = .accumulating)
    (hf : C.fill.val = C.len.toNat % 64) (hl : C.len.toNat < Config.lenLimit) : C.Inv :=
  ⟨fun _ => hf, fun ha => absurd (hp.symm.trans ha) (by decide), hl⟩

theorem Context.reset_inv : Context.reset.Inv := .of_accumulating rfl rfl (by decide)

theorem freshen_inv (C : Context) : (freshen C).Inv :=
  .of_accumulating rfl rfl (show (0#64).toNat < Config.lenLimit by decide)

theorem absorbBytes_inv {C : Context} {bs : List Byte} (hC : C.Inv) (hp : C.phase = .accumulating)
    (hl : C.len.toNat + bs.length < Config.lenLimit) : (absorbBytes C bs).Inv := by
  have hlen := absorbBytes_len_toNat hl
  refine .of_accumulating (by rw [absorbBytes_phase, hp]) ?_ (hlen ▸ hl)
  rw [absorbBytes_fill, hlen, hC.accumulating hp]
  omega

theorem absorb_inv {C : Context} (b : Byte) (hC : C.Inv) (hp : C.phase = .accumulating)
    (hl : C.len.toNat + 1 < Config.lenLimit) : (absorb C b).Inv :=
  absorbBytes_inv (bs := [b]) hC hp hl

theorem finalize_inv {C : Context} (hl : C.len.toNat < Config.lenLimit) : (finalize C).Inv :=
  .of_finalized (finalize_phase C) (finalize_fill C) (by rwa [finalize_len])

/-- `settleKey` changes nothing but a long key that is still Accumulating. -/
theorem settleKey_cases (C : Context) : settleKey C = C ∨ (64 < C.len.toNat ∧ settleKey C = finalize C) := by
  unfold settleKey
  split
  next h => exact .inr ⟨h.1, rfl⟩
  next => exact .inl rfl

theorem settleKey_inv {C : Context} (hC : C.Inv) : (settleKey C).Inv := by
  rcases settleKey_cases C with h | ⟨-, h⟩ <;> rw [h]
  · exact hC
  · exact finalize_inv hC.bounded

/-- `settleKey` finalizes no key of at most 64 bytes (42_hmac.md R176). -/
theorem settleKey_finalized {C : Context} (hC : C.phase = .finalized → 64 < C.len.toNat)
    (h : (settleKey C).phase = .finalized) : 64 < (settleKey C).len.toNat := by
  rw [settleKey_len]
  rcases settleKey_cases C with he | ⟨hl, -⟩
  · exact hC (he ▸ h)
  · exact hl

/-- The pad block that HSTART feeds a fresh context leaves the invariants. -/
theorem absorbBytes_freshen_inv (C : Context) {bs : List Byte} (h : bs.length = 64) :
    (absorbBytes (freshen C) bs).Inv :=
  absorbBytes_inv (freshen_inv C) (freshen_phase C) (by rw [h, freshen_len]; decide)

@[simp] theorem padBytes_length (pad : Byte) (K0 : List Byte) : (padBytes pad K0).length = K0.length :=
  List.length_map ..

/-! ## States -/

theorem State.reset_inv : State.reset.Inv :=
  ⟨Context.reset_inv, Context.reset_inv, Context.reset_inv, fun _ => rfl, fun h => absurd h (by decide)⟩

theorem State.Inv.ctxH {s : State} (hs : s.Inv) (c : Fin 2) : (s.H c).Inv :=
  ctx_cases (p := fun c => (s.H c).Inv) c hs.h0 hs.h1

theorem State.Inv.setH {s : State} (hs : s.Inv) (c : Fin 2) {C : Context} (hC : C.Inv) : (s.setH c C).Inv :=
  ctx_cases (p := fun c => (s.setH c C).Inv) c
    ⟨hC, hs.h1, hs.kh, hs.latch, hs.key⟩ ⟨hs.h0, hC, hs.kh, hs.latch, hs.key⟩

/-- The invariants do not speak of the host's side. -/
theorem State.Inv.withHost {s : State} (hs : s.Inv) (p : List HostEvent) (r : List Word) :
    State.Inv { s with pending := p, replies := r } :=
  ⟨hs.h0, hs.h1, hs.kh, hs.latch, hs.key⟩

/-- Error entry keeps the invariants: the core does not run afterwards, so nothing is said of ERRCMD. -/
theorem State.Inv.latched {s : State} (hs : s.Inv) {code : ErrCode} (w : Word) (hc : code ≠ .none) :
    State.Inv { s with err := code, errcmd := w } :=
  ⟨hs.h0, hs.h1, hs.kh, fun h => absurd h hc, hs.key⟩

/-! ## Commands -/

/-- The effect of a command whose checks pass keeps the invariants. -/
theorem effect_inv {i : Instr} {s : State} (hs : s.Inv) (hp : failsPrecond i s = false)
    (hl : failsLength i s = false) : (effect i s).Inv := by
  cases i with
  | init c => exact hs.setH c (freshen_inv _)
  | add c b =>
    have hph : (s.H c).phase = .accumulating := (isFinalized_eq_false_iff _).1 hp
    exact hs.setH c (absorb_inv b (hs.ctxH c) hph (reachesLimit_eq_false_iff.1 hl))
  | final c => exact hs.setH c (finalize_inv (hs.ctxH c).bounded)
  | kinit => exact ⟨hs.h0, hs.h1, freshen_inv _, hs.latch, fun h => by cases h⟩
  | kadd b =>
    have hph : s.KH.phase = .accumulating := (isFinalized_eq_false_iff _).1 hp
    have hkh := absorb_inv b hs.kh hph (reachesLimit_eq_false_iff.1 hl)
    refine ⟨hs.h0, hs.h1, hkh, hs.latch, fun h => ?_⟩
    rw [effect, absorb_phase, hph] at h
    cases h
  | hstart =>
    exact ⟨absorbBytes_freshen_inv _ (by simp), absorbBytes_freshen_inv _ (by simp), settleKey_inv hs.kh, hs.latch,
      settleKey_finalized hs.key⟩
  | hfinal =>
    have hroom : s.H1.len.toNat + (digestBytes (finalize s.H0).h).length < Config.lenLimit := by
      rw [digestBytes_length]; exact reachesLimit_eq_false_iff.1 hl
    have h1 : (finalize (absorbBytes s.H1 (digestBytes (finalize s.H0).h))).Inv :=
      finalize_inv (absorbBytes_len_toNat hroom ▸ hroom)
    simp only [effect]
    exact ⟨finalize_inv hs.h0.bounded, h1, hs.kh, hs.latch, hs.key⟩

theorem exec_inv {i : Instr} {s t : State} (hs : s.Inv) (h : exec i s = .next t) : t.Inv := by
  rcases exec_cases h with ⟨-, rfl⟩ | ⟨-, -, rfl⟩ | ⟨hp, hl, rfl⟩
  · exact hs.latched _ (by decide)
  · exact hs.latched _ (by decide)
  · exact effect_inv hs hp hl

/-! ## Steps -/

/-- Everything a CMD write can answer: nothing on a halted core, ILLEGAL_CMD latched, or what the command answers. -/
theorem cmdWrite_next {w : Word} {s t : State} (h : cmdWrite w s = .next t) :
    (s.err ≠ .none ∧ t = s) ∨
    (s.err = .none ∧ t = { s with err := .illegalCmd, errcmd := w }) ∨
    (s.err = .none ∧ ∃ i, decode w = .command i ∧ exec i s = .next t) := by
  by_cases hr : s.err = .none
  · rw [cmdWrite_running w hr] at h
    cases hd : decode w with
    | illegal r => rw [hd] at h; exact .inr (.inl ⟨hr, (next_inj h).symm⟩)
    | command i => rw [hd] at h; exact .inr (.inr ⟨hr, i, rfl, h⟩)
  · rw [cmdWrite_halted w hr] at h
    exact .inl ⟨hr, (next_inj h).symm⟩

theorem cmdWrite_inv {w : Word} {s t : State} (hs : s.Inv) (h : cmdWrite w s = .next t) : t.Inv := by
  rcases cmdWrite_next h with ⟨-, rfl⟩ | ⟨-, rfl⟩ | ⟨-, i, -, hi⟩
  · exact hs
  · exact hs.latched _ (by decide)
  · exact exec_inv hs hi

/-- A host write that answers a next state is a CMD write. -/
theorem hostWrite_next {width : Width} {off : BitVec 8} {v : Word} {s t : State}
    (h : hostWrite width off v s = .next t) : cmdWrite v s = .next t := by
  unfold hostWrite at h
  split at h
  next => exact h
  next => cases h

/-- A host read that answers a next state adds one reply and changes nothing else. -/
theorem hostRead_next {width : Width} {off : BitVec 8} {s t : State} (h : hostRead width off s = .next t) :
    ∃ v, t = { s with replies := s.replies ++ [v] } := by
  rcases hostRead_cases width off s with ⟨r, v, -, -, hv⟩ | ⟨f, hf⟩
  · exact ⟨v, next_inj (h.symm.trans hv)⟩
  · rw [hf] at h; cases h

/-- Settles O41: every host event leaves the invariants, by what each kind of event can answer. -/
theorem stepKeepsInvariants : Obligations.StepKeepsInvariants := by
  intro s t hs h
  cases hp : s.pending with
  | nil => exact next_inj ((step_idle hp).symm.trans h) ▸ hs
  | cons e rest =>
    have hs' : State.Inv { s with pending := rest } := hs.withHost rest s.replies
    cases e with
    | read width off =>
      rw [step_read hp] at h
      obtain ⟨v, rfl⟩ := hostRead_next h
      exact hs.withHost rest _
    | write width off v =>
      rw [step_write hp] at h
      exact cmdWrite_inv hs' (hostWrite_next h)
    | reset =>
      rw [step_reset hp] at h
      exact next_inj h ▸ State.reset_inv.withHost rest s.replies

/-- Settles O40: every context is reset fresh, nothing is latched, and KH is Accumulating. -/
theorem invariantsHoldAtReset : Obligations.InvariantsHoldAtReset := State.reset_inv

end Sys2Proof.Machine
end

section
/-! SUPPORT. The frame of a command: the contexts it writes (10_state.md R27, 41_hasher.md R140), and what it can do to a
Finalized one (10_state.md R25, 41_hasher.md R153). -/

namespace Sys2Proof.Machine

/-- The name of the context that a context number selects (30_encoding.md R83). -/
def CtxName.general (c : Fin 2) : CtxName := if c = 0 then .H0 else .H1

@[simp] theorem State.ctx_general (s : State) (c : Fin 2) : s.ctx (.general c) = s.H c :=
  ctx_cases (p := fun c => s.ctx (.general c) = s.H c) c rfl rfl

theorem State.ctx_setH_ne (s : State) {c : Fin 2} (C : Context) {n : CtxName} (h : n ≠ .general c) :
    (s.setH c C).ctx n = s.ctx n := by
  revert h
  refine ctx_cases (p := fun c => n ≠ .general c → (s.setH c C).ctx n = s.ctx n) c (fun h => ?_) (fun h => ?_)
  · cases n with
    | H0 => exact absurd rfl h
    | H1 => rfl
    | KH => rfl
  · cases n with
    | H0 => rfl
    | H1 => exact absurd rfl h
    | KH => rfl

theorem State.ctx_withKH_ne (s : State) (C : Context) {n : CtxName} (h : n ≠ .KH) :
    State.ctx { s with KH := C } n = s.ctx n := by
  cases n with
  | H0 => rfl
  | H1 => rfl
  | KH => exact absurd rfl h

/-- Error entry leaves every context. -/
@[simp] theorem State.ctx_latched (s : State) (code : ErrCode) (w : Word) (n : CtxName) :
    State.ctx { s with err := code, errcmd := w } n = s.ctx n := by cases n <;> rfl

theorem writesContext_kadd (b : Byte) (n : CtxName) : writesContext (.kadd b) n = true ↔ n = .KH := by
  simp [writesContext]

theorem writesContext_kinit (n : CtxName) : writesContext .kinit n = true ↔ n = .KH := writesContext_kadd 0 n

theorem writesContext_init (c : Fin 2) (n : CtxName) : writesContext (.init c) n = true ↔ n = .general c := by
  revert c; cases n <;> decide

theorem writesContext_add (c : Fin 2) (b : Byte) (n : CtxName) :
    writesContext (.add c b) n = true ↔ n = .general c := writesContext_init c n

theorem writesContext_final (c : Fin 2) (n : CtxName) : writesContext (.final c) n = true ↔ n = .general c :=
  writesContext_init c n

/-- The effect of a command leaves the contexts it does not write. -/
theorem effect_ctx {i : Instr} {n : CtxName} (s : State) (h : writesContext i n = false) :
    (effect i s).ctx n = s.ctx n := by
  cases i with
  | init c => exact s.ctx_setH_ne _ fun e => by simp [(writesContext_init c n).2 e] at h
  | add c b => exact s.ctx_setH_ne _ fun e => by simp [(writesContext_add c b n).2 e] at h
  | final c => exact s.ctx_setH_ne _ fun e => by simp [(writesContext_final c n).2 e] at h
  | kinit => exact s.ctx_withKH_ne _ fun e => by simp [(writesContext_kinit n).2 e] at h
  | kadd b => exact s.ctx_withKH_ne _ fun e => by simp [(writesContext_kadd b n).2 e] at h
  | hstart => cases h
  | hfinal =>
    cases n with
    | H0 => cases h
    | H1 => cases h
    | KH => simp [effect]

/-- The effect of every command but KADD leaves KB. -/
theorem effect_KB {i : Instr} (s : State) (h : ∀ b, i ≠ .kadd b) : (effect i s).KB = s.KB := by
  cases i with
  | kadd b => exact absurd rfl (h b)
  | _ => simp [effect]

/-- Settles O44: error entry leaves all of it, and the effect of a command has its frame. -/
theorem commandsWriteOnlyTheirContexts : Obligations.CommandsWriteOnlyTheirContexts := by
  intro i s t h
  rcases exec_cases h with ⟨-, rfl⟩ | ⟨-, -, rfl⟩ | ⟨-, -, rfl⟩
  · exact ⟨fun n _ => s.ctx_latched _ _ n, fun _ => rfl, rfl, rfl⟩
  · exact ⟨fun n _ => s.ctx_latched _ _ n, fun _ => rfl, rfl, rfl⟩
  · exact ⟨fun _ hn => effect_ctx s hn, effect_KB s, effect_pending i s, effect_replies i s⟩

/-- A Finalized KH is kept by `settleKey`. -/
theorem settleKey_of_finalized {C : Context} (h : C.phase = .finalized) : settleKey C = C :=
  if_neg fun ⟨_, ha⟩ => absurd (h.symm.trans ha) (by decide)

theorem isFinalized_ne_false {C : Context} (h : C.phase = .finalized) : isFinalized C ≠ false := by
  rw [(isFinalized_iff C).2 h]; decide

/-- The precondition of every other command is that the contexts it writes are Accumulating. -/
theorem writes_finalized_cases {i : Instr} {s : State} {n : CtxName} (hp : failsPrecond i s = false)
    (hn : (s.ctx n).phase = .finalized) (hw : writesContext i n = true) :
    (∃ c, i = .init c ∧ n = .general c) ∨ (i = .kinit ∧ n = .KH) ∨ i = .hstart := by
  cases i with
  | init c => exact .inl ⟨c, rfl, (writesContext_init c n).1 hw⟩
  | add c b =>
    obtain rfl := (writesContext_add c b n).1 hw
    exact absurd hp (isFinalized_ne_false (s.ctx_general c ▸ hn))
  | final c =>
    obtain rfl := (writesContext_final c n).1 hw
    exact absurd hp (isFinalized_ne_false (s.ctx_general c ▸ hn))
  | kinit => exact .inr (.inl ⟨rfl, (writesContext_kinit n).1 hw⟩)
  | kadd b =>
    obtain rfl := (writesContext_kadd b n).1 hw
    exact absurd hp (isFinalized_ne_false hn)
  | hstart => exact .inr (.inr rfl)
  | hfinal =>
    obtain ⟨h0, h1⟩ := Bool.or_eq_false_iff.1 hp
    cases n with
    | H0 => exact absurd h0 (isFinalized_ne_false hn)
    | H1 => exact absurd h1 (isFinalized_ne_false hn)
    | KH => cases hw

/-- Settles O45: of the commands that may write a Finalized context, HSTART leaves a Finalized KH as it is. -/
theorem finalizedContextIsFrozen : Obligations.FinalizedContextIsFrozen := by
  intro i s t n h hn
  rcases exec_cases h with ⟨-, rfl⟩ | ⟨-, -, rfl⟩ | ⟨hp, -, rfl⟩
  · exact .inl (s.ctx_latched _ _ n)
  · exact .inl (s.ctx_latched _ _ n)
  · cases hw : writesContext i n with
    | false => exact .inl (effect_ctx s hw)
    | true =>
      rcases writes_finalized_cases hp hn hw with ⟨c, rfl, rfl⟩ | ⟨rfl, rfl⟩ | rfl
      · rcases ctx_eq c with rfl | rfl
        · exact .inr (.inl ⟨rfl, .inl rfl⟩)
        · exact .inr (.inr (.inl ⟨rfl, .inl rfl⟩))
      · exact .inr (.inr (.inr ⟨rfl, rfl⟩))
      · cases n with
        | H0 => exact .inr (.inl ⟨rfl, .inr rfl⟩)
        | H1 => exact .inr (.inr (.inl ⟨rfl, .inr rfl⟩))
        | KH => exact .inl (settleKey_of_finalized hn)

end Sys2Proof.Machine
end

section
/-! SUPPORT. The register window, one rule per kind of access (20_memory.md R52 to R56), and the bits of the registers that the
host reads (10_state.md R29 to R34). -/

namespace Sys2Proof.Machine

/-! ## Accesses -/

@[simp] theorem readReg_withPending (s : State) (p : List HostEvent) (r : Reg) :
    readReg { s with pending := p } r = readReg s r := by
  cases r with
  | lenLo c => cases c <;> rfl
  | lenHi c => cases c <;> rfl
  | digest c i => cases c <;> rfl
  | _ => rfl

/-- A read of a register that has a value gives the value to the host and changes nothing in the block. -/
theorem step_read_value {s : State} {off : BitVec 8} {rest : List HostEvent} {r : Reg} {v : Word}
    (h : s.pending = .read .w32 off :: rest) (hr : regAt off = some r) (hv : readReg s r = .ok v) :
    step s = .next { s with pending := rest, replies := s.replies ++ [v] } := by
  rw [step_read h]
  simp only [hostRead, if_true, hr, readReg_withPending, hv]

/-- A read of a register that has no value is a fault. -/
theorem step_read_fault {s : State} {off : BitVec 8} {rest : List HostEvent} {r : Reg} {f : Fault}
    (h : s.pending = .read .w32 off :: rest) (hr : regAt off = some r) (hf : readReg s r = .error f) :
    step s = .fault f := by
  rw [step_read h]
  simp only [hostRead, if_true, hr, readReg_withPending, hf]

/-- A write to any offset but that of CMD is a BadAccess fault. -/
theorem step_write_readOnly {s : State} {off : BitVec 8} {v : Word} {rest : List HostEvent}
    (h : s.pending = .write .w32 off v :: rest) (hoff : off.toNat ≠ 0) : step s = .fault .badAccess := by
  rw [step_write h, hostWrite, if_neg fun hc => hoff ((regAt_cmd_iff off).1 hc.2)]

/-! ## Reset -/

@[simp] theorem State.reset_ctx (n : CtxName) : State.reset.ctx n = Context.reset := by cases n <;> rfl

/-! ## Packed registers: words built from fields that do not overlap -/

/-- A field put above the bits in use adds its multiple. -/
theorem toNat_or_shiftLeft {a b : Word} {k : Nat} (ha : a.toNat < 2 ^ k) (hb : b.toNat * 2 ^ k < 2 ^ 32) :
    (a ||| b <<< k).toNat = a.toNat + b.toNat * 2 ^ k := by
  rw [BitVec.toNat_or, BitVec.toNat_shiftLeft, Nat.shiftLeft_eq, Nat.mod_eq_of_lt hb, Nat.or_comm,
    Nat.mul_comm b.toNat, ← Nat.two_pow_add_eq_or_of_lt ha, Nat.add_comm]

theorem Phase.bit_toNat_eq_one_iff (p : Phase) : p.bit.toNat = 1 ↔ p = .finalized := by cases p <;> decide

/-- A bit of a word, from its value. -/
theorem getLsbD_eq_true_iff (v : Word) (k : Nat) : v.getLsbD k = true ↔ v.toNat / 2 ^ k % 2 = 1 := by
  rw [BitVec.getLsbD, Nat.testBit_eq_decide_div_mod_eq, decide_eq_true_iff]

/-- STATUS as a number (10_state.md R29). -/
theorem State.statusWord_toNat (s : State) : s.statusWord.toNat =
    s.H0.phase.bit.toNat + s.H1.phase.bit.toNat * 2 ^ 1 + s.KH.phase.bit.toNat * 2 ^ 2 + s.err.code.toNat * 2 ^ 8 := by
  have h0 := s.H0.phase.bit.isLt
  have h1 := s.H1.phase.bit.isLt
  have hk := s.KH.phase.bit.isLt
  have he := s.err.code.isLt
  have wp (p : Phase) : (p.bit.setWidth 32).toNat = p.bit.toNat := BitVec.toNat_setWidth_of_le (by decide)
  have we : (s.err.code.setWidth 32).toNat = s.err.code.toNat := BitVec.toNat_setWidth_of_le (by decide)
  have two := toNat_or_shiftLeft (a := s.H0.phase.bit.setWidth 32) (b := s.H1.phase.bit.setWidth 32) (k := 1)
    (by rw [wp]; omega) (by rw [wp]; omega)
  rw [wp, wp] at two
  have three := toNat_or_shiftLeft (b := s.KH.phase.bit.setWidth 32) (k := 2)
    (two.trans_lt (by omega)) (by rw [wp]; omega)
  rw [two, wp] at three
  rw [State.statusWord, toNat_or_shiftLeft (three.trans_lt (by omega)) (by rw [we]; omega), three, we]

/-- FILL as a number (10_state.md R32). -/
theorem State.fillWord_toNat (s : State) :
    s.fillWord.toNat = s.H0.fill.val + s.H1.fill.val * 2 ^ 8 + s.KH.fill.val * 2 ^ 16 := by
  have w (f : Fin 64) : (BitVec.ofNat 32 f.val).toNat = f.val := by simp; omega
  have h0 := s.H0.fill.isLt
  have h1 := s.H1.fill.isLt
  have hk := s.KH.fill.isLt
  have low := toNat_or_shiftLeft (a := BitVec.ofNat 32 s.H0.fill.val) (b := BitVec.ofNat 32 s.H1.fill.val) (k := 8)
    (by rw [w]; omega) (by rw [w]; omega)
  rw [w, w] at low
  rw [State.fillWord, toNat_or_shiftLeft (by rw [low]; omega) (by rw [w]; omega), low, w]

/-! ## The length registers -/

theorem Context.lenLo_toNat (C : Context) : C.lenLo.toNat = C.len.toNat % 2 ^ 32 := by
  simp [Context.lenLo]

theorem Context.lenHi_toNat (C : Context) : C.lenHi.toNat = C.len.toNat / 2 ^ 32 := by
  have := C.len.isLt
  simp [Context.lenHi, Nat.shiftRight_eq_div_pow]
  omega

/-! ## The digest registers -/

/-- The offset of DIGESTc[0] (20_memory.md R51). -/
def digestBase : CtxName → Nat
  | .H0 => 0x40
  | .H1 => 0x60
  | .KH => 0x80

theorem digestBase_pos (n : CtxName) : 0 < digestBase n := by cases n <;> decide

theorem regAt_digest {n : CtxName} {i : Fin 8} {off : BitVec 8} (h : off.toNat = digestBase n + 4 * i.val) :
    regAt off = some (.digest n i) := by
  have hoff : off = BitVec.ofNat 8 (digestBase n + 4 * i.val) := by rw [← h, BitVec.ofNat_toNat, BitVec.setWidth_eq]
  subst hoff
  clear h
  revert i
  cases n <;> decide

/-! ## Obligations -/

/-- Settles O14: each field of STATUS is read off its value as a number. -/
theorem statusRegisterReads : Obligations.StatusRegisterReads := by
  refine ⟨fun s rest h => ⟨s.statusWord, step_read_value h rfl rfl, ?_⟩, by decide,
    fun s v rest h => step_write_readOnly h (by decide)⟩
  have h0 := s.H0.phase.bit.isLt
  have h1 := s.H1.phase.bit.isLt
  have hk := s.KH.phase.bit.isLt
  have he := s.err.code.isLt
  have hv := s.statusWord_toNat
  have code : (s.statusWord.extractLsb' 8 4).toNat = s.err.code.toNat := by
    rw [BitVec.extractLsb'_toNat, Nat.shiftRight_eq_div_pow]; omega
  obtain ⟨low, high⟩ : s.statusWord.extractLsb' 3 5 = 0 ∧ s.statusWord.extractLsb' 12 20 = 0 := by
    simp only [← BitVec.toNat_inj, BitVec.extractLsb'_toNat, Nat.shiftRight_eq_div_pow, BitVec.ofNat_eq_ofNat,
      BitVec.toNat_ofNat]
    omega
  simp only [← Phase.bit_toNat_eq_one_iff, getLsbD_eq_true_iff]
  exact ⟨by omega, by omega, by omega, low, code.trans (by cases s.err <;> rfl), high⟩

/-- Settles O15: each field of FILL is read off its value as a number. -/
theorem fillRegisterReads : Obligations.FillRegisterReads := by
  refine ⟨fun s rest h => ⟨s.fillWord, step_read_value h rfl rfl, ?_⟩, by decide,
    fun s v rest h => step_write_readOnly h (by decide)⟩
  have h0 := s.H0.fill.isLt
  have h1 := s.H1.fill.isLt
  have hk := s.KH.fill.isLt
  have hv := s.fillWord_toNat
  simp only [← BitVec.toNat_inj, BitVec.extractLsb'_toNat, Nat.shiftRight_eq_div_pow, BitVec.ofNat_eq_ofNat,
    BitVec.toNat_ofNat]
  omega

/-- The value of a length register pair is the 64-bit count (10_state.md R33). -/
theorem Context.len_halves (C : Context) : C.lenHi.toNat * 2 ^ 32 + C.lenLo.toNat = C.len.toNat := by
  rw [C.lenLo_toNat, C.lenHi_toNat]
  omega

/-- Settles O16: each length register is read at its offset, and the two halves make up the count. -/
theorem lengthRegistersRead : Obligations.LengthRegistersRead := by
  refine ⟨fun s n rest base hbase => ⟨(s.ctx n).lenLo, (s.ctx n).lenHi, ?_, ?_, (s.ctx n).len_halves, fun v => ⟨?_, ?_⟩⟩,
    fun n => by rw [State.reset_ctx]; rfl⟩
  · exact step_read_value (r := .lenLo n) rfl (by cases n <;> subst hbase <;> rfl) (by simp [readReg])
  · exact step_read_value (r := .lenHi n) rfl (by cases n <;> subst hbase <;> rfl) (by simp [readReg])
  · exact step_write_readOnly rfl (by cases n <;> subst hbase <;> decide)
  · exact step_write_readOnly rfl (by cases n <;> subst hbase <;> decide)

/-- Settles O17, by the rule of a read that has a value. -/
theorem errcmdRegisterReads : Obligations.ErrcmdRegisterReads := fun _ _ h => step_read_value h rfl rfl

/-- Settles O18: the map names word `i` of the context at the offset, and its phase decides the read. -/
theorem digestRegistersRead : Obligations.DigestRegistersRead := by
  refine ⟨fun s n i off rest hoff => ?_, fun n => by rw [State.reset_ctx]; rfl⟩
  replace hoff : off.toNat = digestBase n + 4 * i.val := hoff
  refine ⟨fun h hp => ?_, fun h hp => ?_, fun v h => ?_⟩
  · exact step_read_value h (regAt_digest hoff) (by simp [readReg, hp])
  · exact step_read_fault h (regAt_digest hoff) (by simp [readReg, hp])
  · exact step_write_readOnly h (by have := digestBase_pos n; omega)

/-- Settles O21: every context is reset alike. -/
theorem resetStateValues : Obligations.ResetStateValues :=
  ⟨fun n => by rw [State.reset_ctx]; exact ⟨rfl, rfl, rfl, rfl⟩, rfl, rfl⟩

end Sys2Proof.Machine
end

section
/-! SUPPORT. The accesses of the register window (20_memory.md R50 to R57): every CMD write completes, an access that is not
admitted is a BadAccess fault, and an admitted read has a value that depends on the block alone. -/

namespace Sys2Proof.Machine

/-! ## CMD writes -/

/-- A CMD write answers a next state, whether it is ignored, illegal or executed (20_memory.md R57). -/
theorem cmdWrite_completes (w : Word) (s : State) : ∃ t, cmdWrite w s = .next t := by
  by_cases hr : s.err = .none
  · rw [cmdWrite_running w hr]
    cases decode w with
    | illegal r => exact ⟨_, rfl⟩
    | command i => exact exec_completes i s
  · exact ⟨s, cmdWrite_halted w hr⟩

/-- A CMD write leaves the host's side. -/
theorem cmdWrite_host {w : Word} {s t : State} (h : cmdWrite w s = .next t) :
    t.pending = s.pending ∧ t.replies = s.replies := by
  rcases cmdWrite_next h with ⟨-, rfl⟩ | ⟨-, rfl⟩ | ⟨-, i, -, hi⟩
  · exact ⟨rfl, rfl⟩
  · exact ⟨rfl, rfl⟩
  · obtain ⟨-, -, hpending, hreplies⟩ := commandsWriteOnlyTheirContexts i s t hi
    exact ⟨hpending, hreplies⟩

/-! ## Accesses that are not admitted -/

theorem hostRead_unadmitted {width : Width} {off : BitVec 8} (s : State) (h : ¬ readAdmitted width off) :
    hostRead width off s = .fault .badAccess := by
  by_cases hw : width = .w32
  · rcases (regAt_unreadable_iff off).2 fun ha => h ⟨hw, ha⟩ with hr | hr <;> simp [hostRead, hr, readReg]
  · rw [hostRead, if_neg hw]

theorem hostWrite_unadmitted {width : Width} {off : BitVec 8} (v : Word) (s : State) (h : ¬ writeAdmitted width off) :
    hostWrite width off v s = .fault .badAccess := by
  rw [hostWrite, if_neg fun ⟨hw, hr⟩ => h ⟨hw, (regAt_cmd_iff off).1 hr⟩]

/-! ## Which reads have a value -/

/-- An offset that is admitted for a read holds a register other than CMD. -/
theorem regAt_of_readAdmitted {width : Width} {off : BitVec 8} (h : readAdmitted width off) :
    ∃ r, regAt off = some r ∧ r ≠ .cmd := by
  obtain ⟨-, hoff⟩ := h
  obtain ⟨hnone, hcmd⟩ := not_or.1 (mt (regAt_unreadable_iff off).1 (not_not_intro hoff))
  obtain ⟨r, hr⟩ := Option.ne_none_iff_exists'.1 hnone
  exact ⟨r, hr, fun e => hcmd (e ▸ hr)⟩

/-- Digest registers stand at 0x040 and above (20_memory.md R51). -/
theorem le_of_regAt_digest {n : CtxName} {i : Fin 8} {off : BitVec 8} (h : regAt off = some (.digest n i)) :
    0x40 ≤ off.toNat := by
  unfold regAt at h
  split at h
  case h_11 => split_ifs at h <;> omega
  all_goals cases h

/-- An admitted offset of 0x040 and above holds a digest register of the context that owns it. -/
theorem regAt_digestOwner {width : Width} {off : BitVec 8} (h : readAdmitted width off) (hlo : 0x40 ≤ off.toNat) :
    ∃ i, regAt off = some (.digest (digestOwner off) i) := by
  obtain ⟨-, haligned, hrange⟩ := h
  have hword : ∃ i : Fin 8, off.toNat = digestBase (digestOwner off) + 4 * i.val := by
    refine ⟨⟨(off.toNat - digestBase (digestOwner off)) / 4, ?_⟩, ?_⟩ <;>
      (unfold digestOwner; split_ifs <;> simp only [digestBase] <;> omega)
  obtain ⟨i, hi⟩ := hword
  exact ⟨i, regAt_digest hi⟩

/-- Every register but CMD has a value, a digest register when its context is Finalized (60_exceptions.md R212). -/
theorem readReg_value {s : State} {r : Reg} (hcmd : r ≠ .cmd)
    (hdigest : ∀ n i, r = .digest n i → (s.ctx n).phase = .finalized) : ∃ v, readReg s r = .ok v := by
  cases r with
  | cmd => exact absurd rfl hcmd
  | digest n i => exact ⟨_, if_pos ((isFinalized_iff _).2 (hdigest n i rfl))⟩
  | _ => exact ⟨_, rfl⟩

theorem readable_value {s : State} {width : Width} {off : BitVec 8} (h : readable s width off) :
    ∃ r v, regAt off = some r ∧ readReg s r = .ok v := by
  obtain ⟨hadmitted, hfinal⟩ := h
  obtain ⟨r, hr, hcmd⟩ := regAt_of_readAdmitted hadmitted
  have hdigest (n : CtxName) (i : Fin 8) (e : r = .digest n i) : (s.ctx n).phase = .finalized := by
    subst e
    have hlo := le_of_regAt_digest hr
    obtain ⟨j, hj⟩ := regAt_digestOwner hadmitted hlo
    obtain ⟨rfl, -⟩ := Reg.digest.inj (Option.some.inj (hr.symm.trans hj))
    exact hfinal hlo
  obtain ⟨v, hv⟩ := readReg_value hcmd hdigest
  exact ⟨r, v, hr, hv⟩

/-- An admitted read that has no value is of a digest register of an Accumulating context. -/
theorem unreadable_readBeforeFinal {s : State} {width : Width} {off : BitVec 8} (ha : readAdmitted width off)
    (h : ¬ readable s width off) : ∃ r, regAt off = some r ∧ readReg s r = .error .readBeforeFinal := by
  obtain ⟨hlo, hphase⟩ := Classical.not_imp.1 fun hfinal => h ⟨ha, hfinal⟩
  obtain ⟨i, hi⟩ := regAt_digestOwner ha hlo
  exact ⟨_, hi, if_neg fun hf => hphase ((isFinalized_iff _).1 hf)⟩

/-- The value of a register does not depend on the host's side. -/
theorem readReg_withHost (s : State) (p : List HostEvent) (rs : List Word) (r : Reg) :
    readReg { s with pending := p, replies := rs } r = readReg s r := by
  cases r with
  | lenLo c => cases c <;> rfl
  | lenHi c => cases c <;> rfl
  | digest c i => cases c <;> rfl
  | _ => rfl

/-! ## Obligations -/

/-- Settles O11: a CMD write completes on the state whose list the access was taken from, and leaves the host's side of it. -/
theorem everyCmdWriteCompletes : Obligations.EveryCmdWriteCompletes := by
  intro s w rest h
  obtain ⟨t, ht⟩ := cmdWrite_completes w { s with pending := rest }
  exact ⟨t, (step_writeCmd h).trans ht, cmdWrite_host ht⟩

/-- Settles O12: the step answers the fault of the read or of the write. -/
theorem unadmittedAccessIsBadAccess : Obligations.UnadmittedAccessIsBadAccess := fun _ _ _ v _ =>
  ⟨fun h ha => (step_read h).trans (hostRead_unadmitted _ ha),
    fun h ha => (step_write h).trans (hostWrite_unadmitted v _ ha)⟩

/-- Settles O13: a readable register has a value that the host's side does not enter, and any other admitted read is of a digest
register whose context is Accumulating. -/
theorem readsHaveNoSideEffects : Obligations.ReadsHaveNoSideEffects := by
  refine fun s off => ⟨fun h => ?_, fun ha h rest => ?_⟩
  · obtain ⟨r, v, hr, hv⟩ := readable_value h
    exact ⟨v, fun rest rs => step_read_value rfl hr ((readReg_withHost s _ rs r).trans hv)⟩
  · obtain ⟨r, hr, hf⟩ := unreadable_readBeforeFinal ha h
    exact step_read_fault rfl hr ((readReg_withPending s _ r).trans hf)

/-- Settles O7, by the rule of a CMD write on a running core. -/
theorem stepRunsDecodedCommand : Obligations.StepRunsDecodedCommand := by
  intro s w rest i h hrun hdec
  rw [step_writeCmd h, cmdWrite_running (s := { s with pending := rest }) w hrun, hdec]

/-- Settles O20: inside the window the offset is the distance from the base, and an offset is less than the window's size. -/
theorem windowIsTwoHundredFiftySixBytes : Obligations.WindowIsTwoHundredFiftySixBytes := by
  intro base addr off
  have hsize : Config.windowBytes = 256 := rfl
  have hoff := off.isLt
  unfold windowOffset
  split
  next hin =>
    rw [Option.some_inj, ← BitVec.toNat_inj, BitVec.toNat_ofNat]
    omega
  next hout => exact iff_of_false nofun (by omega)

end Sys2Proof.Machine
end

section
/-! SUPPORT. The encoding of commands (30_encoding.md R81 to R89): a word is its five fields, it decodes to a command exactly when
these are the command's, and the field checks accept exactly the fields of commands. -/

namespace Sys2Proof

open Laws.CommandFields

/-! ## A word is its fields -/

/-- The five fields cover the whole word (30_encoding.md R81). -/
theorem splitFields_injective : Function.Injective splitFields := by
  intro w v h
  simp only [splitFields, CmdFields.mk.injEq, ← BitVec.toNat_inj, BitVec.extractLsb'_toNat,
    Nat.shiftRight_eq_div_pow] at h ⊢
  omega

theorem splitFields_encode (i : Instr) : splitFields (encode i) = fieldsOf i := by
  cases i with
  | init c => exact init c
  | add c b => exact add c b
  | final c => exact final c
  | kinit => exact kinit
  | kadd b => exact kadd b
  | hstart => exact hstart
  | hfinal => exact hfinal

@[simp] theorem ctxOfBit_ofFin (c : Fin 2) : ctxOfBit (.ofFin c) = c := by revert c; decide

@[simp] theorem ofFin_ctxOfBit (b : BitVec 1) : .ofFin (ctxOfBit b) = b := by revert b; decide

/-! ## Decoding, by fields -/

theorem decode_of_fields {w : Word} {i : Instr} (h : splitFields w = fieldsOf i) : decode w = .command i := by
  cases i <;> simp [decode, h, fieldsOf]

theorem eq_ofNat_of_toNat_eq {op : BitVec 4} {n : Nat} (h : op.toNat = n) : op = BitVec.ofNat 4 n := by
  rw [← h, BitVec.ofNat_toNat, BitVec.setWidth_eq]

/-- An arm of the decoder answers a command exactly when its check passes. -/
theorem command_eq_ite_iff {p : Prop} [Decidable p] {i j : Instr} {r : IllegalReason} :
    .command i = (if p then Decoded.command j else .illegal r) ↔ p ∧ i = j := by
  split <;> simp [*]

/-- Each arm of the decoder has checked the fields its command does not use, so the word's fields are the command's. -/
theorem fields_of_decode {w : Word} {i : Instr} (h : decode w = .command i) : splitFields w = fieldsOf i := by
  replace h := h.symm
  dsimp only [decode] at h
  generalize splitFields w = f at h ⊢
  obtain ⟨op, rsv1, ctx, rsv0, imm8⟩ := f
  split at h
  case isTrue => cases h
  case isFalse hreserved =>
    obtain ⟨rfl, rfl⟩ : rsv1 = 0 ∧ rsv0 = 0 := by simpa using hreserved
    split at h
    case h_8 => cases h
    all_goals
      rename_i hop
      obtain rfl := eq_ofNat_of_toNat_eq hop
      simp only [command_eq_ite_iff, Decoded.command.injEq] at h
      simp [h, fieldsOf]

theorem decode_eq_command_iff {w : Word} {i : Instr} : decode w = .command i ↔ splitFields w = fieldsOf i :=
  ⟨fields_of_decode, decode_of_fields⟩

/-! ## The field checks -/

/-- The fields of a command pass every check. -/
theorem wellFormed_fieldsOf (i : Instr) : (fieldsOf i).wellFormed = true := by cases i <;> rfl

theorem CmdFields.opAssigned_iff (f : CmdFields) : f.opAssigned = true ↔ f.op ∈ [1, 2, 3, 4, 5, 6, 7] := by
  have assigned : ∀ op : BitVec 4, (1 ≤ op.toNat ∧ op.toNat ≤ 7) ↔ op ∈ [1, 2, 3, 4, 5, 6, 7] := by decide
  rw [opAssigned, decide_eq_true_iff, assigned]

theorem CmdFields.reservedZero_iff (f : CmdFields) : f.reservedZero = true ↔ f.rsv1 = 0 ∧ f.rsv0 = 0 := by
  simp [reservedZero]

theorem CmdFields.usesCtx_eq_false_iff {f : CmdFields} (h : f.op ∈ [1, 2, 3, 4, 5, 6, 7]) :
    f.usesCtx = false ↔ f.op ∈ [4, 5, 6, 7] := by
  have unused : ∀ op : BitVec 4, op ∈ [1, 2, 3, 4, 5, 6, 7] →
      ((op == 1 || op == 2 || op == 3) = false ↔ op ∈ [4, 5, 6, 7]) := by decide
  exact unused f.op h

theorem CmdFields.usesImm8_eq_false_iff {f : CmdFields} (h : f.op ∈ [1, 2, 3, 4, 5, 6, 7]) :
    f.usesImm8 = false ↔ f.op ∈ [1, 3, 4, 6, 7] := by
  have unused : ∀ op : BitVec 4, op ∈ [1, 2, 3, 4, 5, 6, 7] →
      ((op == 2 || op == 5) = false ↔ op ∈ [1, 3, 4, 6, 7]) := by decide
  exact unused f.op h

/-- The operations that must leave `ctx` zero and those that must leave `imm8` zero (30_encoding.md R86). -/
theorem CmdFields.unusedZero_iff {f : CmdFields} (h : f.op ∈ [1, 2, 3, 4, 5, 6, 7]) : f.unusedZero = true ↔
    (f.op ∈ [4, 5, 6, 7] → f.ctx = 0) ∧ (f.op ∈ [1, 3, 4, 6, 7] → f.imm8 = 0) := by
  rw [← usesCtx_eq_false_iff h, ← usesImm8_eq_false_iff h]
  cases hc : f.usesCtx <;> cases hi : f.usesImm8 <;> simp [unusedZero, hc, hi]

/-- The checks of R85, R86 and R87, written out. -/
theorem CmdFields.wellFormed_iff (f : CmdFields) : f.wellFormed = true ↔
    f.op ∈ [1, 2, 3, 4, 5, 6, 7] ∧ f.rsv1 = 0 ∧ f.rsv0 = 0 ∧
      (f.op ∈ [4, 5, 6, 7] → f.ctx = 0) ∧ (f.op ∈ [1, 3, 4, 6, 7] → f.imm8 = 0) := by
  simp only [wellFormed, Bool.and_eq_true, opAssigned_iff, reservedZero_iff, and_assoc]
  exact and_congr_right fun h => by rw [unusedZero_iff h]

/-- Fields that pass every check are a command's: its operation names the command, and its operands are the fields it uses. -/
theorem exists_fieldsOf_of_wellFormed {f : CmdFields} (h : f.wellFormed = true) : ∃ i, f = fieldsOf i := by
  obtain ⟨hop, hrsv1, hrsv0, hctx, himm8⟩ := f.wellFormed_iff.1 h
  obtain ⟨op, rsv1, ctx, rsv0, imm8⟩ := f
  dsimp only at *
  subst hrsv1 hrsv0
  simp only [List.mem_cons, List.not_mem_nil, or_false] at hop
  rcases hop with rfl | rfl | rfl | rfl | rfl | rfl | rfl
  · exact ⟨.init (ctxOfBit ctx), by simp_all [fieldsOf]⟩
  · exact ⟨.add (ctxOfBit ctx) imm8, by simp [fieldsOf]⟩
  · exact ⟨.final (ctxOfBit ctx), by simp_all [fieldsOf]⟩
  · exact ⟨.kinit, by simp_all [fieldsOf]⟩
  · exact ⟨.kadd imm8, by simp_all [fieldsOf]⟩
  · exact ⟨.hstart, by simp_all [fieldsOf]⟩
  · exact ⟨.hfinal, by simp_all [fieldsOf]⟩

theorem wellFormed_iff_decode (w : Word) : (splitFields w).wellFormed = true ↔ ∃ i, decode w = .command i := by
  simp only [decode_eq_command_iff]
  exact ⟨exists_fieldsOf_of_wellFormed, fun ⟨i, h⟩ => h ▸ wellFormed_fieldsOf i⟩

/-! ## Obligations -/

/-- Settles O1, by evaluation of each word. -/
theorem sampleWordsDecode : Obligations.SampleWordsDecode := by
  unfold Obligations.SampleWordsDecode
  decide

/-- Settles O2: the word of a command carries its fields. -/
theorem decodeOfEncode : Obligations.DecodeOfEncode := fun i => decode_of_fields (splitFields_encode i)

/-- Settles O3: the word and the command's word have the same fields. -/
theorem encodeOfDecode : Obligations.EncodeOfDecode := fun _ i h =>
  splitFields_injective ((splitFields_encode i).trans (fields_of_decode h).symm)

/-- Settles O5: fields pass the checks exactly when they are a command's. -/
theorem wellFormedAgreesWithDecode : Obligations.WellFormedAgreesWithDecode := wellFormed_iff_decode

/-- Settles O4, by the checks written out. -/
theorem commandsAreTheWellFormedWords : Obligations.CommandsAreTheWellFormedWords := fun w =>
  (wellFormed_iff_decode w).symm.trans (splitFields w).wellFormed_iff

/-- Settles O8: a word whose fields fail a check decodes as illegal, and the error entry is all that the CMD write does. -/
theorem illegalWordRaisesIllegalCmd : Obligations.IllegalWordRaisesIllegalCmd := by
  intro s w rest hw hrun hill
  rw [Machine.step_writeCmd hw, Machine.cmdWrite_running (s := { s with pending := rest }) w hrun]
  cases hdec : decode w with
  | illegal r => rfl
  | command i => exact absurd ((wellFormed_iff_decode w).2 ⟨i, hdec⟩) (by simp [hill])

end Sys2Proof
end

section
/-! SUPPORT. The assembler reads the text of a command back (30_encoding.md R90): its mnemonic ends at the first space, its operands
are split at the comma, and a number in decimal digits is read as its value. -/

namespace Sys2Proof.Machine

/-! ## Splitting a text -/

/-- A text is split where the first character fails the test. -/
theorem span_append {p : Char → Bool} {xs ys : List Char} (hx : ∀ c ∈ xs, p c = true)
    (hy : ∀ c ∈ ys.head?, p c = false) : (xs ++ ys).span p = (xs, ys) := by
  rw [List.span_eq_takeWhile_dropWhile, List.takeWhile_append_of_pos hx, List.dropWhile_append_of_pos hx]
  cases ys with
  | nil => simp
  | cons c ys => simp [hy c rfl]

theorem dropWhile_space_of_head {cs : List Char} (h : cs.head? ≠ some ' ') : cs.dropWhile (· == ' ') = cs := by
  cases cs with
  | nil => rfl
  | cons c cs => exact List.dropWhile_cons_of_neg (by simpa using h)

theorem trimChars_space_cons (cs : List Char) : trimChars (' ' :: cs) = trimChars cs := rfl

/-- A text that neither begins nor ends with a space has nothing to trim. -/
theorem trimChars_eq_self {cs : List Char} (hhead : cs.head? ≠ some ' ') (hlast : cs.getLast? ≠ some ' ') :
    trimChars cs = cs := by
  rw [trimChars, dropWhile_space_of_head hhead, dropWhile_space_of_head (by rwa [List.head?_reverse]), List.reverse_reverse]

theorem splitComma_append {xs : List Char} (ys : List Char) (h : ∀ c ∈ xs, c ≠ ',') :
    splitComma (xs ++ ',' :: ys) = some (xs, ys) := by
  simp only [splitComma, span_append (p := (· != ',')) (ys := ',' :: ys) (by simpa using h) (by simp)]

/-! ## Numbers in decimal -/

theorem isDigit_ofNat : ∀ d < 10, (Char.ofNat (48 + d)).isDigit = true := by decide

theorem digitValue_ofNat : ∀ d < 10, digitValue 10 (Char.ofNat (48 + d)) = some d := by decide

theorem ne_of_isDigit {c d : Char} (h : c.isDigit = true) (hd : d.isDigit = false) : c ≠ d := by
  rintro rfl
  simp [h] at hd

theorem isDigit_of_mem_decimalChars {n : Nat} (hn : n < 1000) : ∀ c ∈ decimalChars n, c.isDigit = true := by
  unfold decimalChars
  split_ifs <;> simp only [List.mem_cons, List.not_mem_nil, or_false, forall_eq_or_imp, forall_eq]
  · exact isDigit_ofNat n ‹_›
  · exact ⟨isDigit_ofNat _ (by omega), isDigit_ofNat _ (by omega)⟩
  · exact ⟨isDigit_ofNat _ (by omega), isDigit_ofNat _ (by omega), isDigit_ofNat _ (by omega)⟩

theorem decimalChars_ne_nil (n : Nat) : decimalChars n ≠ [] := by
  unfold decimalChars
  split_ifs <;> simp

/-- The digits of a number, read in base 10, are the number. -/
theorem parseDigits_decimalChars {n : Nat} (hn : n < 1000) : parseDigits 10 (decimalChars n) = some n := by
  unfold decimalChars
  split_ifs with h1 h2
  · simp [parseDigits, digitValue_ofNat n h1]
  · simp [parseDigits, digitValue_ofNat (n / 10) (by omega), digitValue_ofNat (n % 10) (by omega)]
    omega
  · simp [parseDigits, digitValue_ofNat (n / 100) (by omega), digitValue_ofNat (n / 10 % 10) (by omega),
      digitValue_ofNat (n % 10) (by omega)]
    omega

theorem trimChars_of_isDigit {cs : List Char} (h : ∀ c ∈ cs, c.isDigit = true) : trimChars cs = cs :=
  have noSpace : ∀ c ∈ cs, c ≠ ' ' := fun c hc => ne_of_isDigit (h c hc) rfl
  trimChars_eq_self (fun he => noSpace _ (List.mem_of_head? he) rfl) (fun he => noSpace _ (List.mem_of_getLast? he) rfl)

/-- A text of digits is neither a character literal nor hexadecimal. -/
theorem parseNumber_of_isDigit {cs : List Char} (h : ∀ c ∈ cs, c.isDigit = true) :
    parseNumber (' ' :: cs) = parseDigits 10 cs := by
  rw [parseNumber, trimChars_space_cons, trimChars_of_isDigit h]
  split
  · exact absurd (h '\'' (by simp)) (by decide)
  · exact absurd (h 'x' (by simp)) (by decide)
  · rfl

/-! ## Operands -/

theorem parseImm8_decimalChars (b : Byte) : parseImm8 (' ' :: decimalChars b.toNat) = some b := by
  have hb := b.isLt
  have hn : b.toNat < 1000 := by omega
  rw [parseImm8, parseNumber_of_isDigit (isDigit_of_mem_decimalChars hn), parseDigits_decimalChars hn, Option.bind_some,
    if_pos hb, BitVec.ofNat_toNat, BitVec.setWidth_eq]

theorem parseCtx_decimalChars (c : Fin 2) : parseCtx (' ' :: decimalChars c.val) = some c := by
  revert c
  decide

theorem splitComma_operandChars_add (c : Fin 2) (b : Byte) :
    splitComma (operandChars (.add c b)) = some (' ' :: decimalChars c.val, ' ' :: decimalChars b.toNat) := by
  have noComma : ∀ x ∈ ' ' :: decimalChars c.val, x ≠ ',' := by
    refine List.forall_mem_cons.2 ⟨by decide, fun x hx => ne_of_isDigit (isDigit_of_mem_decimalChars ?_ x hx) rfl⟩
    omega
  simpa [operandChars] using splitComma_append (' ' :: decimalChars b.toNat) noComma

/-! ## The mnemonic -/

/-- The operands of a command end with no space: if there are any, the last character is a digit. -/
theorem operandChars_getLast? (i : Instr) : (operandChars i).getLast? ≠ some ' ' := by
  have last {n : Nat} (hn : n < 1000) (cs : List Char) : (cs ++ decimalChars n).getLast? ≠ some ' ' := by
    rw [List.getLast?_append_of_ne_nil _ (decimalChars_ne_nil n)]
    exact fun h => ne_of_isDigit (isDigit_of_mem_decimalChars hn _ (List.mem_of_getLast? h)) rfl rfl
  cases i with
  | init c => exact last (by omega) [' ']
  | add c b => exact last (by omega) (' ' :: decimalChars c.val ++ [',', ' '])
  | final c => exact last (by omega) [' ']
  | kadd b => exact last (by omega) [' ']
  | kinit | hstart | hfinal => nofun

theorem operandChars_head? (i : Instr) : ∀ c ∈ (operandChars i).head?, (c != ' ') = false := by
  cases i <;> simp [operandChars]

theorem mnemonic_ne_space (i : Instr) : ∀ c ∈ (mnemonic i).toList, (c != ' ') = true := by
  cases i <;> simp [mnemonic]

theorem splitMnemonic_commandChars (i : Instr) :
    splitMnemonic (commandChars i) = ((mnemonic i).toList, operandChars i) := by
  have hhead : (commandChars i).head? ≠ some ' ' := by
    cases i <;> simp [commandChars, mnemonic]
  have hlast : (commandChars i).getLast? ≠ some ' ' := by
    rw [commandChars, List.getLast?_append, Ne, Option.or_eq_some_iff]
    rintro (h | ⟨-, h⟩)
    · exact operandChars_getLast? i h
    · simpa using mnemonic_ne_space i ' ' (List.mem_of_getLast? h)
  rw [splitMnemonic, trimChars_eq_self hhead hlast]
  exact span_append (mnemonic_ne_space i) (operandChars_head? i)

/-! ## Obligations -/

/-- Settles O6: the mnemonic names the command, and each operand is read back. -/
theorem assemblerReadsCommandText : Obligations.AssemblerReadsCommandText := by
  intro i
  rw [assembleCommand, splitMnemonic_commandChars]
  cases i with
  | init c => simp [mnemonic, operandChars, parseCtx_decimalChars]
  | add c b => simp [mnemonic, splitComma_operandChars_add, parseCtx_decimalChars, parseImm8_decimalChars]
  | final c => simp [mnemonic, operandChars, parseCtx_decimalChars]
  | kinit => rfl
  | kadd b => simp [mnemonic, operandChars, parseImm8_decimalChars]
  | hstart => rfl
  | hfinal => rfl

end Sys2Proof.Machine
end

section
/-! SUPPORT. The compression engine (40_compression.md): its bit functions bit by bit, the message schedule as a packed block
extended by a recurrence, and the rounds as a sequence of working variables. -/

namespace Sys2Proof.Machine

/-! ## The bit functions -/

/-- A rotation reads bit `i` from `n` places above, and from the other end where that runs past bit 31 (R101). -/
theorem rotr_getLsbD (x : Word) {n i : Nat} (hn : n < 32) (hi : i < 32) :
    (rotr x n).getLsbD i = x.getLsbD ((i + n) % 32) := by
  rw [rotr, BitVec.getLsbD_or, BitVec.getLsbD_ushiftRight, BitVec.getLsbD_shiftLeft]
  by_cases h : i + n < 32
  · have hlow : i < 32 - n := by omega
    rw [Nat.mod_eq_of_lt h, Nat.add_comm]
    simp [hlow]
  · have hhigh : ¬ i < 32 - n := by omega
    have hwrap : (i + n) % 32 = i - (32 - n) := by omega
    rw [BitVec.getLsbD_of_ge x (n + i) (by omega)]
    simp [hi, hhigh, hwrap]

theorem shr_getLsbD (x : Word) (n i : Nat) : (shr x n).getLsbD i = x.getLsbD (i + n) := by
  rw [shr, BitVec.getLsbD_ushiftRight, Nat.add_comm]

theorem ch_getLsbD (x y z : Word) {i : Nat} (hi : i < 32) :
    (ch x y z).getLsbD i = if x.getLsbD i = true then y.getLsbD i else z.getLsbD i := by
  rw [ch, BitVec.getLsbD_xor, BitVec.getLsbD_and, BitVec.getLsbD_and, BitVec.getLsbD_not, decide_eq_true hi]
  cases x.getLsbD i with
  | true => simp
  | false => simp

theorem maj_getLsbD (x y z : Word) (i : Nat) :
    (maj x y z).getLsbD i =
      ((x.getLsbD i && y.getLsbD i) ^^ (x.getLsbD i && z.getLsbD i) ^^ (y.getLsbD i && z.getLsbD i)) := by
  simp [maj]

/-- The exclusive or of the three conjunctions of R107 is the majority vote. -/
theorem majority_iff : ∀ a b c : Bool,
    ((a && b) ^^ (a && c) ^^ (b && c)) = true ↔ 2 ≤ a.toNat + b.toNat + c.toNat := by decide

/-! ## The message schedule -/

/-- The packed word as a number, most significant byte first (00_scope.md R12). -/
theorem be32_toNat (b0 b1 b2 b3 : Byte) :
    (be32 b0 b1 b2 b3).toNat = b0.toNat * 2 ^ 24 + b1.toNat * 2 ^ 16 + b2.toNat * 2 ^ 8 + b3.toNat := by
  have w (b : Byte) : (b.setWidth 32).toNat = b.toNat := BitVec.toNat_setWidth_of_le (by decide)
  have h0 := b0.isLt
  have h1 := b1.isLt
  have h2 := b2.isLt
  have h3 := b3.isLt
  have two := toNat_or_shiftLeft (a := b3.setWidth 32) (b := b2.setWidth 32) (k := 8)
    (by rw [w]; omega) (by rw [w]; omega)
  rw [w, w] at two
  have three := toNat_or_shiftLeft (b := b1.setWidth 32) (k := 16) (two.trans_lt (by omega)) (by rw [w]; omega)
  rw [two, w] at three
  have four := toNat_or_shiftLeft (b := b0.setWidth 32) (k := 24) (three.trans_lt (by omega)) (by rw [w]; omega)
  rw [three, w] at four
  have reverse (a b c d : Word) : a ||| b ||| c ||| d = d ||| c ||| b ||| a := by ac_rfl
  rw [be32, reverse, four]
  omega

@[simp] theorem scheduleStart_length (B : Block) : (scheduleStart B).length = 16 := by simp [scheduleStart]

theorem scheduleStart_getD (B : Block) {t : Nat} (ht : t < 16) : (scheduleStart B).getD t 0 =
    be32 (blockByte B (4 * t)) (blockByte B (4 * t + 1)) (blockByte B (4 * t + 2)) (blockByte B (4 * t + 3)) := by
  simp [scheduleStart, ht]

/-- The right-hand side of the recurrence of R111. -/
def scheduleWord (W : List Word) (t : Nat) : Word :=
  smallSigma1 (W.getD (t - 2) 0) + W.getD (t - 7) 0 + smallSigma0 (W.getD (t - 15) 0) + W.getD (t - 16) 0

theorem scheduleNext_eq (W : List Word) (t : Nat) : scheduleNext W t = W ++ [scheduleWord W t] := rfl

/-- The recurrence looks only at the words before `t`, so words appended later do not disturb it. -/
theorem scheduleWord_append (W X : List Word) {t : Nat} (h16 : 16 ≤ t) (ht : t ≤ W.length) :
    scheduleWord (W ++ X) t = scheduleWord W t := by
  have before {k : Nat} (hk : 0 < k) (hkt : k ≤ 16) : (W ++ X).getD (t - k) 0 = W.getD (t - k) 0 :=
    List.getD_append W X 0 (t - k) (by omega)
  simp only [scheduleWord, before, Nat.reduceLeDiff, Nat.ofNat_pos, le_refl]

/-- Schedule step 2 for `n` words keeps the words it starts from and appends `n` that satisfy the recurrence. -/
theorem foldl_scheduleNext (n : Nat) (W : List Word) (h16 : 16 ≤ W.length) :
    ∃ X, X.length = n ∧ (List.range' W.length n).foldl scheduleNext W = W ++ X ∧
      ∀ t, W.length ≤ t → t < W.length + n → (W ++ X).getD t 0 = scheduleWord (W ++ X) t := by
  induction n generalizing W with
  | zero => exact ⟨[], rfl, by simp, fun t hle hlt => absurd hlt (by omega)⟩
  | succ n ih =>
    have hlen : (scheduleNext W W.length).length = W.length + 1 := by simp [scheduleNext_eq]
    obtain ⟨X, hX, hfold, hrec⟩ := ih (scheduleNext W W.length) (by omega)
    have hcons : scheduleNext W W.length ++ X = W ++ scheduleWord W W.length :: X := by simp [scheduleNext_eq]
    rw [hlen, hcons] at hfold hrec
    refine ⟨scheduleWord W W.length :: X, by simp [hX], ?_, fun t hle hlt => ?_⟩
    · rw [List.range'_succ, List.foldl_cons, hfold]
    · rcases hle.eq_or_lt with rfl | hgt
      · rw [scheduleWord_append W _ h16 le_rfl]
        simp
      · exact hrec t hgt (by omega)

/-- The schedule is the packed block followed by 48 words of the recurrence. -/
theorem schedule_eq_append (B : Block) : ∃ X, X.length = 48 ∧ schedule B = scheduleStart B ++ X ∧
    ∀ t, 16 ≤ t → t < 64 → (schedule B).getD t 0 = scheduleWord (schedule B) t := by
  obtain ⟨X, hX, hfold, hrec⟩ := foldl_scheduleNext 48 (scheduleStart B) (by simp)
  rw [scheduleStart_length] at hfold hrec
  have hs : schedule B = scheduleStart B ++ X := hfold
  exact ⟨X, hX, hs, hs ▸ hrec⟩

/-! ## The rounds -/

/-- The working variables before round `t`, and after the last round for `t = 64` (R112, R113). -/
def workVarsBefore (S : HashState) (B : Block) (t : Nat) : WorkVars :=
  (List.range t).foldl (compressRound (schedule B)) (WorkVars.start S)

theorem workVarsBefore_zero (S : HashState) (B : Block) : workVarsBefore S B 0 = WorkVars.start S := rfl

theorem workVarsBefore_succ (S : HashState) (B : Block) (t : Nat) :
    workVarsBefore S B (t + 1) = compressRound (schedule B) (workVarsBefore S B t) t := by
  rw [workVarsBefore, List.range_succ, List.foldl_append]
  rfl

theorem compress_eq_addTo (S : HashState) (B : Block) : compress S B = (workVarsBefore S B 64).addTo S := rfl

theorem hashState_toList (S : HashState) : S.toList = [S[0], S[1], S[2], S[3], S[4], S[5], S[6], S[7]] :=
  calc S.toList = List.ofFn fun i : Fin 8 => S[i.val] := by rw [← Vector.toList_ofFn, Vector.ofFn_getElem]
    _ = [S[0], S[1], S[2], S[3], S[4], S[5], S[6], S[7]] := rfl

/-- The final addition is element-wise (R114). -/
theorem WorkVars.addTo_toList (v : WorkVars) (S : HashState) :
    (v.addTo S).toList = List.zipWith (· + ·) S.toList [v.a, v.b, v.c, v.d, v.e, v.f, v.g, v.h] := by
  rw [hashState_toList S]
  rfl

/-! ## Obligations -/

/-- Settles O36: each function is read at bit `i`; the majority is a fact about three Booleans. -/
theorem bitFunctionsBitwise : Obligations.BitFunctionsBitwise :=
  ⟨fun x _ _ _ hn hi => rotr_getLsbD x (by omega) hi,
   fun x n i _ => shr_getLsbD x n i,
   fun x y z _ hi => ch_getLsbD x y z hi,
   fun x y z i _ => maj_getLsbD x y z i ▸ majority_iff _ _ _⟩

/-- Settles O37: step 1 packs the block, and step 2 appends words of the recurrence and leaves the packed ones. -/
theorem scheduleMeetsRecurrence : Obligations.ScheduleMeetsRecurrence := by
  intro B
  obtain ⟨X, hX, hs, hrec⟩ := schedule_eq_append B
  refine ⟨by simp [hs, hX], fun t ht => ?_, hrec⟩
  rw [hs, List.getD_append _ _ _ _ (by simpa using ht), scheduleStart_getD B ht, be32_toNat]
  rfl

/-- Settles O38: the working variables before each round are the fold of the rounds before it. -/
theorem compressRunsSixtyFourRounds : Obligations.CompressRunsSixtyFourRounds := fun S B =>
  ⟨workVarsBefore S B, workVarsBefore_zero S B, fun t _ => workVarsBefore_succ S B t,
    compress_eq_addTo S B ▸ (workVarsBefore S B 64).addTo_toList S⟩

end Sys2Proof.Machine
end

section
/-! SUPPORT. The hasher's commands INIT, ADD and FINAL (41_hasher.md R140 to R150): what each leaves in its context, the padding as
whole blocks, and the big-endian bytes of the length suffix and of the digest. -/

namespace Sys2Proof.Machine

/-! ## Bytes, most significant first -/

/-- Byte `j` of a 64-bit value is its bits from `8 * (7 - j)` up (00_scope.md R12). -/
theorem be64Bytes_getD (v : BitVec 64) {j : Nat} (hj : j < 8) :
    (be64Bytes v).getD j 0 = v.extractLsb' (8 * (7 - j)) 8 := by
  interval_cases j <;> rfl

theorem wordBytes_getElem? (w : Word) {j : Nat} (hj : j < 4) :
    (wordBytes w)[j]? = some (w.extractLsb' (24 - 8 * j) 8) := by
  interval_cases j <;> rfl

/-- Each word takes four places of the byte sequence. -/
theorem flatMap_wordBytes_getElem? (ws : List Word) (i : Nat) {j : Nat} (hj : j < 4) :
    (ws.flatMap wordBytes)[4 * i + j]? = ws[i]?.map fun w => w.extractLsb' (24 - 8 * j) 8 := by
  induction ws generalizing i with
  | nil => rfl
  | cons w ws ih =>
    have hlen : (wordBytes w).length = 4 := rfl
    rw [List.flatMap_cons]
    cases i with
    | zero =>
      rw [List.getElem?_append_left (by omega), Nat.mul_zero, Nat.zero_add, wordBytes_getElem? w hj]
      rfl
    | succ i =>
      rw [List.getElem?_append_right (by omega), hlen, show 4 * (i + 1) + j - 4 = 4 * i + j by omega, ih]
      rfl

/-- The bit count of a length below the ceiling is exact (41_hasher.md R143). -/
theorem bitCount_toNat {n : Nat} (hn : n < Config.lenLimit) : (BitVec.ofNat 64 n * 8).toNat = 8 * n := by
  have hL : Config.lenLimit = 2 ^ 45 := rfl
  have h8 : (8 : BitVec 64).toNat = 8 := rfl
  rw [BitVec.toNat_mul, BitVec.toNat_ofNat, h8]
  omega

theorem lengthSuffix_getD_toNat {n j : Nat} (hn : n < Config.lenLimit) (hj : j < 8) :
    ((be64Bytes (BitVec.ofNat 64 n * 8)).getD j 0).toNat = 8 * n / 256 ^ (7 - j) % 256 := by
  rw [be64Bytes_getD _ hj, BitVec.extractLsb'_toNat, bitCount_toNat hn, Nat.shiftRight_eq_div_pow, pow_mul]
  rfl

/-- The bit count of a length below the ceiling fits in 48 bits (41_hasher.md R148). -/
theorem lengthSuffix_getD_eq_zero {n j : Nat} (hn : n < Config.lenLimit) (hj : j < 2) :
    (be64Bytes (BitVec.ofNat 64 n * 8)).getD j 0 = 0 := by
  have hL : Config.lenLimit = 2 ^ 45 := rfl
  have hpow : 256 ^ 6 ≤ 256 ^ (7 - j) := Nat.pow_le_pow_right (by decide) (by omega)
  apply BitVec.eq_of_toNat_eq
  rw [lengthSuffix_getD_toNat hn (by omega), Nat.div_eq_of_lt (by omega)]
  rfl

/-! ## Finalize, by the number of bytes held -/

/-- The hash state that Finalize leaves: the held bytes and the padding, compressed block by block. -/
theorem finalize_h (C : Context) : (finalize C).h =
    compressBlocks ((C.fill.val + (9 + padZeros C.fill.val)) / 64) C.h
      (heldBytes C ++ 0x80 :: (List.replicate (padZeros C.fill.val) 0x00 ++ lengthSuffix C.len)) := by
  have hlen : (0x80 :: (List.replicate (padZeros C.fill.val) (0x00 : Byte) ++ lengthSuffix C.len)).length =
      9 + padZeros C.fill.val := by simp; omega
  rw [finalize_eq]
  dsimp only
  rw [(putBytes_blocks _ _).1, hlen]

/-- Two blocks, cut where the first ends. -/
theorem compressBlocks_two_append (h : HashState) {bs : List Byte} (cs : List Byte) (hbs : bs.length = 64) :
    compressBlocks 2 h (bs ++ cs) = compress (compress h (blockOf bs)) (blockOf cs) := by
  simp only [compressBlocks]
  rw [blockOf_append _ _ hbs.ge, ← hbs, List.drop_left]

theorem finalize_h_oneBlock {C : Context} (h : C.fill.val ≤ 55) : (finalize C).h = compress C.h
    (blockOf (heldBytes C ++ [0x80] ++ List.replicate (55 - C.fill.val) 0x00 ++ lengthSuffix C.len)) := by
  have hz : padZeros C.fill.val = 55 - C.fill.val := by unfold padZeros; omega
  have hn : (C.fill.val + (9 + (55 - C.fill.val))) / 64 = 1 := by omega
  rw [finalize_h, hz, hn]
  simp [compressBlocks]

theorem finalize_h_twoBlocks {C : Context} (h : 56 ≤ C.fill.val) : (finalize C).h =
    compress (compress C.h (blockOf (heldBytes C ++ [0x80] ++ List.replicate (63 - C.fill.val) 0x00)))
      (blockOf (List.replicate 56 0x00 ++ lengthSuffix C.len)) := by
  have hlt := C.fill.isLt
  have hz : padZeros C.fill.val = 63 - C.fill.val + 56 := by unfold padZeros; omega
  have hn : (C.fill.val + (9 + (63 - C.fill.val + 56))) / 64 = 2 := by omega
  have hlen : (heldBytes C ++ [0x80] ++ List.replicate (63 - C.fill.val) 0x00).length = 64 := by simp; omega
  rw [finalize_h, hz, hn, ← compressBlocks_two_append _ _ hlen, ← List.replicate_append_replicate]
  simp only [List.append_assoc, List.cons_append, List.nil_append]

/-! ## The commands -/

/-- An ADD that raises no error absorbs its byte. -/
theorem exec_add {c : Fin 2} {s : State} (b : Byte) (hp : (s.H c).phase = .accumulating)
    (hl : (s.H c).len.toNat + 1 < Config.lenLimit) : exec (.add c b) s = .next (s.setH c (absorb (s.H c) b)) :=
  exec_effect ((isFinalized_eq_false_iff _).2 hp) (reachesLimit_eq_false hl)

/-- A FINAL that raises no error finalizes its context. -/
theorem exec_final {c : Fin 2} {s : State} (hp : (s.H c).phase = .accumulating) :
    exec (.final c) s = .next (s.setH c (finalize (s.H c))) :=
  exec_effect ((isFinalized_eq_false_iff _).2 hp) rfl

/-! ## Obligations -/

/-- Settles O23: INIT's effect, and the words of INIT 0 and INIT 1. -/
theorem initMakesContextFresh : Obligations.InitMakesContextFresh :=
  ⟨decodeOfEncode (.init 0), decodeOfEncode (.init 1), fun c s => ⟨s.setH c (freshen (s.H c)), rfl, by simp⟩⟩

/-- Settles O24: PutByte stores the byte, and whether a compression runs depends on the room left. -/
theorem addAbsorbsOneByte : Obligations.AddAbsorbsOneByte := by
  intro c b s hp hl
  refine ⟨_, exec_add b hp hl, by simp, ?_⟩
  rw [State.setH_H]
  refine ⟨(absorb_phase _ b).trans hp, absorbBytes_len_toNat (bs := [b]) hl, fun j => ?_, fun h => ?_, fun h => ?_⟩
  · simp [Vector.getElem_set, Fin.ext_iff, eq_comm]
  · exact (putByte_room b (by omega)).symm
  · obtain ⟨hh, hfill⟩ := putByte_full (C := s.H c) b (by omega)
    exact ⟨hfill, by rw [absorb_h, hh, absorb_buf]⟩

/-- Settles O25: the padding completes one block when at most 55 bytes are held, else two. -/
theorem finalPadsAndFinalizes : Obligations.FinalPadsAndFinalizes := by
  intro c s hp
  refine ⟨_, exec_final hp, by simp, ?_⟩
  rw [State.setH_H]
  exact ⟨finalize_phase _, finalize_fill _, finalize_len _, finalize_h_oneBlock, finalize_h_twoBlocks⟩

/-- Settles O26: below the ceiling the bit count does not wrap, and it is less than `256 ^ 6`. -/
theorem lengthSuffixIsBigEndianBitCount : Obligations.LengthSuffixIsBigEndianBitCount := fun _ hn =>
  ⟨rfl, fun _ hj => lengthSuffix_getD_toNat hn hj, lengthSuffix_getD_eq_zero hn (by decide),
    lengthSuffix_getD_eq_zero hn (by decide)⟩

/-- Settles O39: word `i` of the digest takes the places `4 * i` to `4 * i + 3`. -/
theorem digestBytesAreBigEndian : Obligations.DigestBytesAreBigEndian := by
  refine fun h => ⟨digestBytes_length h, fun i j hj => ?_⟩
  rw [digestBytes, List.getD_eq_getElem?_getD, flatMap_wordBytes_getElem? _ _ hj]
  simp

/-- Settles O48, by the length of the padding. -/
theorem paddingFillsWholeBlocks : Obligations.PaddingFillsWholeBlocks := by
  intro n
  have hz : padZeros n = (119 - n % 64) % 64 := rfl
  have hlen := padding_length n
  exact ⟨by omega, fun k hk => by omega, fun h => by omega, fun h => by omega⟩

end Sys2Proof.Machine
end

section
/-! SUPPORT. Commands that write different contexts (70_reset_and_hazards.md R239, R241): neither the checks nor the effect of a
command look at a context it does not write, so two such commands may be exchanged. -/

namespace Sys2Proof.Machine

/-- A state is its contexts and its other fields. -/
theorem State.ext_ctx {s t : State} (hctx : ∀ n, s.ctx n = t.ctx n) (hKB : s.KB = t.KB) (herr : s.err = t.err)
    (herrcmd : s.errcmd = t.errcmd) (hpending : s.pending = t.pending) (hreplies : s.replies = t.replies) : s = t := by
  cases s
  cases t
  exact State.mk.injEq .. ▸ ⟨hctx .H0, hctx .H1, hctx .KH, hKB, herr, herrcmd, hpending, hreplies⟩

/-- The two states are the same in every context that the command writes. -/
def SameWritten (i : Instr) (s t : State) : Prop := ∀ n, writesContext i n = true → s.ctx n = t.ctx n

theorem SameWritten.general {i : Instr} {s t : State} {c : Fin 2} (h : SameWritten i s t)
    (hw : writesContext i (.general c) = true) : s.H c = t.H c := by
  simpa only [State.ctx_general] using h (.general c) hw

/-- The checks of a command look only at the contexts it writes. -/
theorem checks_of_sameWritten {i : Instr} {s t : State} (h : SameWritten i s t) :
    failsPrecond i s = failsPrecond i t ∧ failsLength i s = failsLength i t := by
  cases i with
  | init c => exact ⟨rfl, rfl⟩
  | add c b =>
    have hc := h.general ((writesContext_add c b _).2 rfl)
    simp [failsPrecond, failsLength, hc]
  | final c =>
    have hc := h.general ((writesContext_final c _).2 rfl)
    simp [failsPrecond, failsLength, hc]
  | kinit => exact ⟨rfl, rfl⟩
  | kadd b =>
    have hk : s.KH = t.KH := h .KH rfl
    simp [failsPrecond, failsLength, hk]
  | hstart => exact ⟨rfl, rfl⟩
  | hfinal =>
    have h0 : s.H0 = t.H0 := h .H0 rfl
    have h1 : s.H1 = t.H1 := h .H1 rfl
    simp [failsPrecond, failsLength, h0, h1]

/-- Every command but HSTART, which reads KB, writes its contexts from these contexts alone. -/
theorem effect_sameWritten {i : Instr} {s t : State} (hi : i ≠ .hstart) (h : SameWritten i s t) :
    SameWritten i (effect i s) (effect i t) := by
  intro n hn
  cases i with
  | init c =>
    obtain rfl := (writesContext_init c n).1 hn
    simp [effect, h.general hn]
  | add c b =>
    obtain rfl := (writesContext_add c b n).1 hn
    simp [effect, h.general hn]
  | final c =>
    obtain rfl := (writesContext_final c n).1 hn
    simp [effect, h.general hn]
  | kinit =>
    obtain rfl := (writesContext_kinit n).1 hn
    exact congrArg freshen (h .KH rfl)
  | kadd b =>
    obtain rfl := (writesContext_kadd b n).1 hn
    exact congrArg (absorb · b) (h .KH rfl)
  | hstart => exact absurd rfl hi
  | hfinal =>
    have h0 : s.H0 = t.H0 := h .H0 rfl
    have h1 : s.H1 = t.H1 := h .H1 rfl
    cases n with
    | H0 => simp [effect, h0]
    | H1 => simp [effect, h0, h1]
    | KH => cases hn

theorem exists_writesContext (i : Instr) : ∃ n, writesContext i n = true := by
  cases i with
  | init c => exact ⟨_, (writesContext_init c _).2 rfl⟩
  | add c b => exact ⟨_, (writesContext_add c b _).2 rfl⟩
  | final c => exact ⟨_, (writesContext_final c _).2 rfl⟩
  | kinit => exact ⟨.KH, rfl⟩
  | kadd b => exact ⟨.KH, rfl⟩
  | hstart => exact ⟨.KH, rfl⟩
  | hfinal => exact ⟨.H0, rfl⟩

/-- No context is written by both commands. -/
def Independent (i j : Instr) : Prop := ∀ n, writesContext i n = true → writesContext j n = false

theorem Independent.symm {i j : Instr} (h : Independent i j) : Independent j i := fun n hj => by
  cases hi : writesContext i n with
  | false => rfl
  | true => rw [h n hi] at hj; cases hj

/-- HSTART writes every context, so no command is independent of it. -/
theorem Independent.ne_hstart {i j : Instr} (h : Independent i j) : i ≠ .hstart := by
  rintro rfl
  obtain ⟨n, hn⟩ := exists_writesContext j
  rw [h n rfl] at hn
  cases hn

theorem Independent.sameWritten {i j : Instr} (h : Independent i j) (s : State) : SameWritten i (effect j s) s :=
  fun n hn => effect_ctx s (h n hn)

/-- In a context that the first command writes, the order does not matter. -/
theorem Independent.effect_ctx_comm {i j : Instr} (h : Independent i j) (s : State) {n : CtxName}
    (hn : writesContext i n = true) : (effect j (effect i s)).ctx n = (effect i (effect j s)).ctx n :=
  (effect_ctx _ (h n hn)).trans (effect_sameWritten h.ne_hstart (h.sameWritten s) n hn).symm

theorem effect_kadd_KB (b : Byte) (s : State) : (effect (.kadd b) s).KB = storeKeyByte s.KB s.KH.len b := rfl

/-- KADD writes KH, so a command independent of it leaves KH, which gives the place of the key byte, and KB. -/
theorem Independent.effect_kadd_KB_comm {b : Byte} {j : Instr} (h : Independent (.kadd b) j) (s : State) :
    (effect j (effect (.kadd b) s)).KB = (effect (.kadd b) (effect j s)).KB := by
  have hj : ∀ b', j ≠ .kadd b' := by
    rintro b' rfl
    cases h .KH rfl
  have hKH : (effect j s).KH = s.KH := h.sameWritten s .KH rfl
  rw [effect_KB _ hj, effect_kadd_KB, effect_kadd_KB, hKH, effect_KB s hj]

theorem Independent.effect_KB_comm {i j : Instr} (h : Independent i j) (s : State) :
    (effect j (effect i s)).KB = (effect i (effect j s)).KB := by
  by_cases hi : ∃ b, i = .kadd b
  · obtain ⟨b, rfl⟩ := hi
    exact h.effect_kadd_KB_comm s
  by_cases hj : ∃ b, j = .kadd b
  · obtain ⟨b, rfl⟩ := hj
    exact (h.symm.effect_kadd_KB_comm s).symm
  · have hi' := not_exists.1 hi
    have hj' := not_exists.1 hj
    rw [effect_KB _ hj', effect_KB _ hi', effect_KB _ hi', effect_KB _ hj']

theorem Independent.effect_comm {i j : Instr} (h : Independent i j) (s : State) :
    effect j (effect i s) = effect i (effect j s) := by
  refine State.ext_ctx (fun n => ?_) (h.effect_KB_comm s) (by simp) (by simp) (by simp) (by simp)
  cases hi : writesContext i n with
  | true => exact h.effect_ctx_comm s hi
  | false =>
    cases hj : writesContext j n with
    | true => exact (h.symm.effect_ctx_comm s hj).symm
    | false => rw [effect_ctx _ hj, effect_ctx _ hi, effect_ctx _ hi, effect_ctx _ hj]

/-- Two independent commands that raise no error may be exchanged. -/
theorem Independent.exchange {i j : Instr} (h : Independent i j) {s u t : State} (hs : s.err = .none)
    (hi : exec i s = .next u) (hu : u.err = .none) (hj : exec j u = .next t) (ht : t.err = .none) :
    ∃ u', exec j s = .next u' ∧ u'.err = .none ∧ exec i u' = .next t := by
  obtain ⟨hpi, hli, rfl⟩ := exec_of_running hi hu
  obtain ⟨hpj, hlj, rfl⟩ := exec_of_running hj ht
  obtain ⟨hpj', hlj'⟩ := checks_of_sameWritten (h.symm.sameWritten s)
  obtain ⟨hpi', hli'⟩ := checks_of_sameWritten (h.sameWritten s)
  refine ⟨effect j s, exec_effect (hpj' ▸ hpj) (hlj' ▸ hlj), (effect_err j s).trans hs, ?_⟩
  rw [exec_effect (hpi'.trans hpi) (hli'.trans hli), h.effect_comm]

/-- Settles O46: the commands of each pair write different contexts. -/
theorem independentCommandsCommute : Obligations.IndependentCommandsCommute := by
  intro i j s u t hij hs hi hu hj ht
  refine Independent.exchange ?_ hs hi hu hj ht
  rcases hij with ⟨h0, h1⟩ | ⟨hk, hother⟩
  · have hwi : ∀ n, writesContext i n = true → n = .H0 := by
      rcases h0 with rfl | ⟨b, rfl⟩ | rfl
      · exact fun n => (writesContext_init 0 n).1
      · exact fun n => (writesContext_add 0 b n).1
      · exact fun n => (writesContext_final 0 n).1
    have hwj : writesContext j .H0 = false := by rcases h1 with rfl | ⟨b, rfl⟩ | rfl <;> rfl
    exact fun n hn => hwi n hn ▸ hwj
  · have hwi : ∀ n, writesContext i n = true → n = .KH := by
      rcases hk with rfl | ⟨b, rfl⟩
      · exact fun n => (writesContext_kinit n).1
      · exact fun n => (writesContext_kadd b n).1
    have hwj : writesContext j .KH = false := by
      rcases hother with ⟨c, rfl⟩ | ⟨c, b, rfl⟩ | ⟨c, rfl⟩ | rfl <;> rfl
    exact fun n hn => hwi n hn ▸ hwj

end Sys2Proof.Machine
end

section
/-! SUPPORT. Sequences of commands: CMD writes of a sequence run it (20_memory.md R57, R61), and INIT, the ADDs of a message and
FINAL hash the message (41_hasher.md R151, R154). -/

namespace Sys2Proof.Machine

/-! ## CMD writes of a sequence -/

/-- A command does not clear the error latch. -/
theorem exec_err {i : Instr} {s u : State} (h : exec i s = .next u) (hu : u.err = .none) : s.err = .none := by
  obtain ⟨-, -, rfl⟩ := exec_of_running h hu
  exact (effect_err i s).symm.trans hu

/-- A sequence of commands splits at its first. -/
theorem execSeq_cons {i : Instr} {is : List Instr} {s t : State} (h : execSeq (i :: is) s = .next t) :
    ∃ u, exec i s = .next u ∧ execSeq is u = .next t := by
  obtain ⟨u, hu⟩ := exec_completes i s
  rw [execSeq, hu] at h
  exact ⟨u, hu, h⟩

/-- A sequence of commands does not clear the error latch. -/
theorem execSeq_err {is : List Instr} {s t : State} (h : execSeq is s = .next t) (ht : t.err = .none) :
    s.err = .none := by
  induction is generalizing s with
  | nil => exact next_inj h ▸ ht
  | cons i is ih =>
    obtain ⟨u, hu, hrest⟩ := execSeq_cons h
    exact exec_err hu (ih hrest)

/-- A command that raises no error does not look at the host's side. -/
theorem exec_withPending {i : Instr} {s u : State} (h : exec i s = .next u) (hu : u.err = .none)
    (p : List HostEvent) : exec i { s with pending := p } = .next { u with pending := p } := by
  obtain ⟨hp, hl, rfl⟩ := exec_of_running h hu
  have hsame : SameWritten i { s with pending := p } s := fun n _ => s.ctx_pending p n
  obtain ⟨hp', hl'⟩ := checks_of_sameWritten hsame
  rw [exec_effect (hp'.trans hp) (hl'.trans hl), effect_withPending]

/-- The CMD write of a command that raises no error has the command's effect. -/
theorem step_commandWrite {i : Instr} {s u : State} (h : exec i s = .next u) (hu : u.err = .none)
    (rest : List HostEvent) :
    step { s with pending := writeCmd (encode i) :: rest } = .next { u with pending := rest } := by
  have hs : s.err = .none := exec_err h hu
  have hstep := stepRunsDecodedCommand { s with pending := writeCmd (encode i) :: rest } (encode i) rest i rfl hs
    (decodeOfEncode i)
  exact hstep.trans (exec_withPending h hu rest)

theorem run_succ {k : Nat} {s u : State} (h : step s = .next u) :
    Host.Core.run core (k + 1) s = Host.Core.run core k u := by
  have hstep : core.step s = .next u := h
  simp only [Host.Core.run, hstep]

/-- **The CMD writes of a sequence that raises no error run the sequence**, one step for each command. -/
theorem run_commandWrites {is : List Instr} {s t : State} (h : execSeq is s = .next t) (ht : t.err = .none)
    (rest : List HostEvent) :
    Host.Core.run core is.length { s with pending := commandWrites is ++ rest } = .next { t with pending := rest } := by
  induction is generalizing s with
  | nil =>
    obtain rfl := next_inj h
    rfl
  | cons i is ih =>
    obtain ⟨u, hu, hrest⟩ := execSeq_cons h
    have hstep := step_commandWrite hu (execSeq_err hrest ht) (commandWrites is ++ rest)
    exact (run_succ hstep).trans (ih hrest)

/-! ## Hashing a message -/

@[simp] theorem absorbBytes_freshen_len (C : Context) (m : List Byte) :
    (absorbBytes (freshen C) m).len = BitVec.ofNat 64 m.length := by
  rw [absorbBytes_eq]
  exact BitVec.zero_add _

/-- INIT and the ADDs of a message, from any state, absorb the message from a fresh start. -/
theorem execSeq_init_adds (c : Fin 2) {m : List Byte} (s : State) (hm : m.length < Config.lenLimit) :
    execSeq (.init c :: addCommands c m) s = .next (s.setH c (absorbBytes (freshen (s.H c)) m)) := by
  have hinit : exec (.init c) s = .next (s.setH c (freshen (s.H c))) := rfl
  have hlen : ((s.setH c (freshen (s.H c))).H c).len.toNat + m.length < Config.lenLimit := by simpa using hm
  simp only [execSeq, hinit]
  rw [addCommands, execSeq_adds c m _ (by simp) hlen]
  simp

/-- The commands of SHA, from any state, finalize a context that absorbed the message from a fresh start. -/
theorem execSeq_shaCommands (c : Fin 2) {m : List Byte} (s : State) (hm : m.length < Config.lenLimit) :
    execSeq (shaCommands c m) s = .next (s.setH c (finalize (absorbBytes (freshen (s.H c)) m))) := by
  have hfinal := exec_final (c := c) (s := s.setH c (absorbBytes (freshen (s.H c)) m)) (by simp)
  rw [shaCommands, ← List.cons_append, execSeq_append _ _ _ _ (execSeq_init_adds c s hm), execSeq, hfinal]
  simp [execSeq]

/-- Settles O49: both runs absorb the whole message from a fresh start. -/
theorem splittingDoesNotMatter : Obligations.SplittingDoesNotMatter := by
  intro c m n s s' hl
  have hm : m.length < Config.lenLimit := by rw [List.length_append] at hl; omega
  have hu := execSeq_init_adds c s' hm
  have ht' : execSeq (addCommands c n) (s'.setH c (absorbBytes (freshen (s'.H c)) m)) = _ :=
    calc _ = execSeq ((.init c :: addCommands c m) ++ addCommands c n) s' := (execSeq_append _ _ _ _ hu).symm
      _ = execSeq (.init c :: addCommands c (m ++ n)) s' := by simp [addCommands]
      _ = _ := execSeq_init_adds c s' hl
  refine ⟨_, _, _, execSeq_init_adds c s hl, hu, ht', ?_⟩
  rw [State.setH_H, State.setH_H]
  exact absorbBytes_agree (freshen_agree _ _) (m ++ n)

/-- Settles O50: the CMD writes run the sequence, and Finalize after a fresh start gives SHA-256. -/
theorem hashCommandsComputeSha256 : Obligations.HashCommandsComputeSha256 := by
  intro c m s rest hs hm hp
  have hrun := run_commandWrites (execSeq_shaCommands c s hm) (by simpa using hs) rest
  have hlength : (shaCommands c m).length = m.length + 2 := by simp [shaCommands, addCommands]
  rw [hlength, ← hp] at hrun
  have hH := s.setH_H c (finalize (absorbBytes (freshen (s.H c)) m))
  exact ⟨_, hrun, congrArg (fun C => { s.setH c C with pending := rest }) hH.symm,
    (congrArg Context.phase hH).trans (finalize_phase _),
    (congrArg Context.h hH).trans (finalize_absorbBytes_freshen _ m), (congrArg Context.len hH).trans (by simp)⟩

end Sys2Proof.Machine
end

section
/-! SUPPORT. The HMAC commands one by one (42_hmac.md R172 to R177): KINIT, KADD, the K0 and the two pad blocks of HSTART, and
HFINAL as FINAL 0, the ADDs of the inner digest to H[1], and FINAL 1. -/

namespace Sys2Proof.Machine

/-! ## Checks that pass -/

/-- A KADD that raises no error has its effect. -/
theorem exec_kadd {s : State} (b : Byte) (hp : s.KH.phase = .accumulating)
    (hl : s.KH.len.toNat + 1 < Config.lenLimit) : exec (.kadd b) s = .next (effect (.kadd b) s) :=
  exec_effect ((isFinalized_eq_false_iff _).2 hp) (reachesLimit_eq_false hl)

/-- HSTART has no checks. -/
theorem exec_hstart (s : State) : exec .hstart s = .next (effect .hstart s) := rfl

/-- An HFINAL that raises no error has its effect. -/
theorem exec_hfinal {s : State} (hp0 : s.H0.phase = .accumulating) (hp1 : s.H1.phase = .accumulating)
    (hl : s.H1.len.toNat + 32 < Config.lenLimit) : exec .hfinal s = .next (effect .hfinal s) :=
  exec_effect (Bool.or_eq_false_iff.2 ⟨(isFinalized_eq_false_iff _).2 hp0, (isFinalized_eq_false_iff _).2 hp1⟩)
    (reachesLimit_eq_false hl)

theorem exec_final_zero {s : State} (hp : s.H0.phase = .accumulating) :
    exec (.final 0) s = .next { s with H0 := finalize s.H0 } := exec_final (c := 0) hp

theorem exec_final_one {s : State} (hp : s.H1.phase = .accumulating) :
    exec (.final 1) s = .next { s with H1 := finalize s.H1 } := exec_final (c := 1) hp

/-- A sequence of commands splits at its last. -/
theorem execSeq_concat {is : List Instr} {i : Instr} {s t u : State} (h : execSeq is s = .next t)
    (hi : exec i t = .next u) : execSeq (is ++ [i]) s = .next u := by
  rw [execSeq_append _ _ _ _ h, execSeq, hi]
  rfl

/-! ## K0 (42_hmac.md R176) -/

theorem settleKey_of_short {C : Context} (h : C.len.toNat ≤ 64) : settleKey C = C := if_neg fun ⟨hl, _⟩ => by omega

theorem settleKey_of_long {C : Context} (hl : 64 < C.len.toNat) (hp : C.phase = .accumulating) :
    settleKey C = finalize C := if_pos ⟨hl, hp⟩

/-- A key longer than 64 bytes is Finalized once it is settled. -/
theorem settleKey_phase_of_long {C : Context} (hl : 64 < C.len.toNat) : (settleKey C).phase = .finalized := by
  cases hp : C.phase with
  | accumulating => rw [settleKey_of_long hl hp, finalize_phase]
  | finalized => rw [settleKey_of_finalized hp, hp]

theorem keyBlockK0_of_short {C : Context} (KB : Block) (h : C.len.toNat ≤ 64) :
    keyBlockK0 C KB = KB.toList.take C.len.toNat ++ List.replicate (64 - C.len.toNat) 0x00 := if_neg (by omega)

theorem keyBlockK0_of_long {C : Context} (KB : Block) (h : 64 < C.len.toNat) :
    keyBlockK0 C KB = digestBytes C.h ++ List.replicate 32 0x00 := if_pos h

/-- K0 of a key of at most 64 bytes, byte by byte. -/
theorem keyBlockK0_eq_map_range {C : Context} (KB : Block) (h : C.len.toNat ≤ 64) :
    keyBlockK0 C KB = (List.range 64).map fun i => if i < C.len.toNat then KB.toList.getD i 0 else 0 := by
  refine List.ext_getElem (by simp) fun i hi _ => ?_
  have h64 : i < 64 := by simpa using hi
  simp only [keyBlockK0_of_short KB h, List.getElem_map, List.getElem_range]
  by_cases hlt : i < C.len.toNat
  · rw [if_pos hlt, List.getElem_append_left (by simp; omega)]
    simp [h64]
  · rw [if_neg hlt, List.getElem_append_right (by simp; omega), List.getElem_replicate]

/-! ## The pad blocks (42_hmac.md R177) -/

/-- 64 bytes absorbed from a fresh start are one compressed block. -/
theorem absorbBytes_freshen_block (C : Context) {bs : List Byte} (h : bs.length = 64) :
    (absorbBytes (freshen C) bs).h = compress initialVector (blockOf bs) ∧
    (absorbBytes (freshen C) bs).fill.val = 0 ∧ (absorbBytes (freshen C) bs).len = 64 ∧
    (absorbBytes (freshen C) bs).phase = .accumulating := by
  have hz : (freshen C).fill.val = 0 := rfl
  refine ⟨?_, by rw [absorbBytes_fill, hz, h], by rw [absorbBytes_freshen_len, h]; rfl, absorbBytes_phase _ _⟩
  rw [absorbBytes_eq]
  dsimp only
  rw [(putBytes_blocks _ _).1, heldBytes_of_fill_zero hz, hz, h]
  rfl

/-- INIT of both general contexts leaves both fresh. -/
theorem execSeq_inits (s : State) :
    execSeq [.init 0, .init 1] s = .next { s with H0 := freshen s.H0, H1 := freshen s.H1 } := rfl

/-- ADDs to each of two fresh general contexts absorb their bytes. -/
theorem execSeq_inits_adds (s : State) {xs ys : List Byte} (hx : xs.length < Config.lenLimit)
    (hy : ys.length < Config.lenLimit) :
    execSeq ([.init 0, .init 1] ++ xs.map (.add 0) ++ ys.map (.add 1)) s =
      .next { s with H0 := absorbBytes (freshen s.H0) xs, H1 := absorbBytes (freshen s.H1) ys } := by
  have h0 : execSeq ([.init 0, .init 1] ++ xs.map (.add 0)) s =
      .next { s with H0 := absorbBytes (freshen s.H0) xs, H1 := freshen s.H1 } :=
    (execSeq_append _ _ _ _ (execSeq_inits s)).trans (execSeq_adds 0 xs _ rfl (by simpa using hx))
  exact (execSeq_append _ _ _ _ h0).trans (execSeq_adds 1 ys _ rfl (by simpa using hy))

/-- What HSTART leaves in the two general contexts: the compressed ipad block and the compressed opad block. -/
theorem effect_hstart_blocks (s : State) {K0 : List Byte} (hK0 : keyBlockK0 (settleKey s.KH) s.KB = K0) :
    ((effect .hstart s).H0.h = compress initialVector (blockOf (padBytes 0x36 K0)) ∧
      (effect .hstart s).H1.h = compress initialVector (blockOf (padBytes 0x5c K0))) ∧
    (effect .hstart s).H0.fill.val = 0 ∧ (effect .hstart s).H0.len = 64 ∧ (effect .hstart s).H0.phase = .accumulating ∧
    (effect .hstart s).H1.fill.val = 0 ∧ (effect .hstart s).H1.len = 64 ∧ (effect .hstart s).H1.phase = .accumulating := by
  subst hK0
  obtain ⟨hh0, hfill0, hlen0, hphase0⟩ := absorbBytes_freshen_block s.H0
    (bs := padBytes Config.ipadByte (keyBlockK0 (settleKey s.KH) s.KB)) (by simp)
  obtain ⟨hh1, hfill1, hlen1, hphase1⟩ := absorbBytes_freshen_block s.H1
    (bs := padBytes Config.opadByte (keyBlockK0 (settleKey s.KH) s.KB)) (by simp)
  exact ⟨⟨hh0, hh1⟩, hfill0, hlen0, hphase0, hfill1, hlen1, hphase1⟩

/-! ## Obligations -/

/-- Settles O27: KINIT's effect, and its word. -/
theorem kinitStartsNewKey : Obligations.KinitStartsNewKey :=
  ⟨decodeOfEncode .kinit, fun s => ⟨effect .kinit s, rfl, rfl, rfl, rfl, rfl, rfl, rfl⟩⟩

/-- Settles O28: KH absorbs the byte as a general context absorbs it at an ADD, and KB stores it at its index. -/
theorem kaddAppendsKeyByte : Obligations.KaddAppendsKeyByte := by
  intro b s hp hl
  obtain ⟨t, ht, -, habsorb⟩ := addAbsorbsOneByte 0 b { s with H0 := s.KH } hp hl
  obtain rfl := next_inj ((exec_add (c := 0) (s := { s with H0 := s.KH }) b hp hl).symm.trans ht)
  refine ⟨_, exec_kadd b hp hl, rfl, fun j => ?_, habsorb⟩
  simp only [effect, storeKeyByte_getElem, eq_comm]

/-- Settles O29: KH stays, and each general context absorbs one pad block from a fresh start. -/
theorem hstartWithShortKey : Obligations.HstartWithShortKey := by
  intro s hl
  have hKH : settleKey s.KH = s.KH := settleKey_of_short hl
  have hK0 : keyBlockK0 (settleKey s.KH) s.KB = _ :=
    (congrArg (keyBlockK0 · s.KB) hKH).trans (keyBlockK0_eq_map_range s.KB hl)
  obtain ⟨hh, hrest⟩ := effect_hstart_blocks s hK0
  simp only [padBytes, List.map_map, Function.comp_def] at hh
  exact ⟨_, exec_hstart s, by simp only [effect, hKH], hh, hrest⟩

/-- Settles O30: settling the key finalizes it or finds it Finalized. -/
theorem hstartWithLongKey : Obligations.HstartWithLongKey := by
  intro s hl
  have hlen : 64 < (settleKey s.KH).len.toNat := by rwa [settleKey_len]
  obtain ⟨hh, hrest⟩ := effect_hstart_blocks s (keyBlockK0_of_long s.KB hlen)
  refine ⟨_, exec_hstart s, rfl, settleKey_phase_of_long hl, settleKey_of_finalized, fun hp u hu => ?_, hh, hrest⟩
  have hphase : (u.H 0).phase = .accumulating := by rwa [State.H_zero, hu]
  exact ⟨_, exec_final hphase, (settleKey_of_long hl hp).trans (congrArg finalize hu.symm)⟩

/-- Settles O31: the INITs and ADDs absorb the same pad bytes in the same fresh contexts, and KH stays. -/
theorem hstartIsInitsThenAdds : Obligations.HstartIsInitsThenAdds := by
  intro s hl
  have hKH : settleKey s.KH = s.KH := settleKey_of_short hl
  have hroom : ∀ pad, (padBytes pad (keyBlockK0 s.KH s.KB)).length < Config.lenLimit := fun pad => by
    rw [padBytes_length, keyBlockK0_length]
    decide
  have hadds := execSeq_inits_adds s (hroom Config.ipadByte) (hroom Config.opadByte)
  simp only [padBytes, List.map_map] at hadds
  dsimp only
  rw [exec_hstart, ← keyBlockK0_of_short s.KB hl]
  refine Eq.trans ?_ hadds.symm
  simp only [effect, hKH, padBytes]

/-- Settles O32: the fields of two finalized contexts, and FINAL 0's effect on H[0]. -/
theorem hfinalCompletesHmac : Obligations.HfinalCompletesHmac := by
  intro s hp0 hp1 hl
  have hroom : s.H1.len.toNat + (digestBytes (finalize s.H0).h).length < Config.lenLimit := by
    rwa [digestBytes_length]
  have hlen1 : (effect .hfinal s).H1.len.toNat = s.H1.len.toNat + 32 := by
    rw [effect, finalize_len, absorbBytes_len_toNat hroom, digestBytes_length]
  exact ⟨_, exec_hfinal hp0 hp1 hl, rfl, finalize_phase _, finalize_fill _, finalize_len _, finalize_phase _,
    finalize_fill _, hlen1, _, exec_final_zero hp0, rfl⟩

/-- Settles O33: the ADDs absorb the digest bytes in H[1], and FINAL 1 finalizes it. -/
theorem hfinalIsFinalAddsFinal : Obligations.HfinalIsFinalAddsFinal := by
  intro s u hp0 hp1 hl hu
  obtain rfl : { s with H0 := finalize s.H0 } = u := next_inj ((exec_final_zero hp0).symm.trans hu)
  refine ⟨?_, digestBytes_length _⟩
  have hadds : execSeq ((digestBytes (finalize s.H0).h).map (.add 1)) { s with H0 := finalize s.H0 } =
      .next { s with H0 := finalize s.H0, H1 := absorbBytes s.H1 (digestBytes (finalize s.H0).h) } :=
    execSeq_adds 1 _ { s with H0 := finalize s.H0 } hp1 (by rwa [digestBytes_length])
  have hfinal : exec (.final 1)
      { s with H0 := finalize s.H0, H1 := absorbBytes s.H1 (digestBytes (finalize s.H0).h) } =
      .next (effect .hfinal s) := by
    rw [exec_final_one ((absorbBytes_phase s.H1 _).trans hp1), effect]
  exact (exec_hfinal hp0 hp1 hl).trans (execSeq_concat hadds hfinal).symm

end Sys2Proof.Machine
end

section
/-! SUPPORT. Whole HMACs (42_hmac.md R171, R178 to R182): KINIT and the KADDs leave the core holding a key, and from any state that
holds it HSTART, the ADDs of a message and HFINAL compute the HMAC and leave it holding the key. -/

namespace Sys2Proof.Machine

/-- HSTART derives the K0 of the key `k` (42_hmac.md R176). -/
def State.HoldsKey (s : State) (k : List Byte) : Prop := keyBlockK0 (settleKey s.KH) s.KB = hmacK0 k

/-- The state after KINIT and a KADD for each byte of `k`. -/
def State.withKey (s : State) (k : List Byte) : State :=
  { s with KH := absorbBytes (freshen s.KH) k, KB := storeKeyBytes s.KB 0 k }

/-- What HSTART, the ADDs of `m` and HFINAL make of a state that holds the key `k`. -/
structure IsHmacOf (k m : List Byte) (s t : State) : Prop where
  KH : t.KH = settleKey s.KH
  KB : t.KB = s.KB
  err : t.err = s.err
  errcmd : t.errcmd = s.errcmd
  replies : t.replies = s.replies
  phase0 : t.H0.phase = .finalized
  phase1 : t.H1.phase = .finalized
  inner : t.H0.h = hmacInner k m
  outer : t.H1.h = hmacSha256 k m

theorem State.withKey_KH_len {s : State} {k : List Byte} (hk : k.length < Config.lenLimit) :
    (s.withKey k).KH.len.toNat = k.length := by
  have hL : Config.lenLimit = 2 ^ 45 := rfl
  rw [State.withKey, absorbBytes_freshen_len, BitVec.toNat_ofNat]
  omega

theorem State.withKey_holdsKey (s : State) {k : List Byte} (hk : k.length < Config.lenLimit) :
    (s.withKey k).HoldsKey k := keyBlockK0_eq_hmacK0 s.KH s.KB k hk

/-- A key of at most 64 bytes is not finalized by HSTART, and a longer one is. -/
theorem State.withKey_settled_iff (s : State) {k : List Byte} (hk : k.length < Config.lenLimit) :
    (settleKey (s.withKey k).KH).phase = .finalized ↔ 64 < k.length := by
  have hphase : (s.withKey k).KH.phase = .accumulating := absorbBytes_phase _ _
  rw [← s.withKey_KH_len hk]
  refine ⟨fun h => ?_, settleKey_phase_of_long⟩
  rw [← settleKey_len]
  exact settleKey_finalized (fun hf => absurd (hphase.symm.trans hf) (by decide)) h

/-- An HMAC leaves the key for the next one (42_hmac.md R179). -/
theorem IsHmacOf.holdsKey {k m : List Byte} {s t : State} (h : IsHmacOf k m s t) (hk : s.HoldsKey k) :
    t.HoldsKey k := by
  rwa [State.HoldsKey, h.KH, h.KB, settleKey_settleKey]

theorem hmacK0_length (k : List Byte) : (hmacK0 k).length = 64 := by
  unfold hmacK0
  split
  next => simp
  next => simp; omega

/-- KINIT and KADDs, from any state, feed a key. -/
theorem execSeq_kinit_kadds (s : State) {k : List Byte} (hk : k.length < Config.lenLimit) :
    execSeq (.kinit :: k.map .kadd) s = .next (s.withKey k) :=
  execSeq_kadds k (effect .kinit s) rfl (by simpa [effect] using hk)

/-- HSTART and the ADDs of a message absorb both pad blocks, and the message after the first. -/
theorem execSeq_hstart_adds {s : State} {k m : List Byte} (hk : s.HoldsKey k) (hm : 64 + m.length < Config.lenLimit) :
    execSeq (.hstart :: addCommands 0 m) s =
      .next { s with
        KH := settleKey s.KH
        H0 := absorbBytes (freshen s.H0) (padBytes Config.ipadByte (hmacK0 k) ++ m)
        H1 := absorbBytes (freshen s.H1) (padBytes Config.opadByte (hmacK0 k)) } := by
  have hK0 : keyBlockK0 (settleKey s.KH) s.KB = hmacK0 k := hk
  obtain ⟨-, -, hlen, hphase, -⟩ := effect_hstart_blocks s hK0
  refine (execSeq_adds 0 m (effect .hstart s) hphase (by rwa [State.H_zero, hlen])).trans ?_
  simp only [State.setH_zero, State.H_zero, effect, hK0, absorbBytes_append]

/-- **HSTART, the ADDs of a message and HFINAL compute an HMAC** under the key the core holds. -/
theorem execSeq_hstart_adds_hfinal {s : State} {k m : List Byte} (hk : s.HoldsKey k)
    (hm : 64 + m.length < Config.lenLimit) :
    ∃ t, execSeq (.hstart :: (addCommands 0 m ++ [.hfinal])) s = .next t ∧ IsHmacOf k m s t := by
  have hlen1 : (absorbBytes (freshen s.H1) (padBytes Config.opadByte (hmacK0 k))).len = 64 := by
    rw [absorbBytes_freshen_len, padBytes_length, hmacK0_length]
    rfl
  have hinner := finalize_absorbBytes_freshen s.H0 (padBytes Config.ipadByte (hmacK0 k) ++ m)
  have houter := finalize_absorbBytes_freshen s.H1 (padBytes Config.opadByte (hmacK0 k) ++ digestBytes (hmacInner k m))
  rw [absorbBytes_append] at houter
  have hrun := execSeq_concat (execSeq_hstart_adds hk hm)
    (exec_hfinal (absorbBytes_phase _ _) (absorbBytes_phase _ _) (by rw [hlen1]; decide))
  simp only [effect, hinner] at hrun
  exact ⟨_, hrun, rfl, rfl, rfl, rfl, rfl, finalize_phase _, finalize_phase _, hinner, houter⟩

/-- The commands of HMAC, from any state, compute it and leave the core holding the key. -/
theorem execSeq_hmacCommands (s : State) {k m : List Byte} (hk : k.length < Config.lenLimit)
    (hm : 64 + m.length < Config.lenLimit) :
    ∃ t, execSeq (hmacCommands k m) s = .next t ∧ IsHmacOf k m (s.withKey k) t := by
  obtain ⟨t, ht, hmac⟩ := execSeq_hstart_adds_hfinal (s.withKey_holdsKey hk) hm
  exact ⟨t, (execSeq_append _ _ _ _ (execSeq_kinit_kadds s hk)).trans ht, hmac⟩

theorem hmacCommands_length (k m : List Byte) : (hmacCommands k m).length = k.length + m.length + 3 := by
  simp [hmacCommands, addCommands]
  omega

/-- The digest of a long key has the K0 of that key (42_hmac.md R180). -/
theorem hmacK0_digest {k : List Byte} (h : 64 < k.length) : hmacK0 (digestBytes (sha256 k)) = hmacK0 k := by
  simp [hmacK0, h]

theorem hmacSha256_digest {k : List Byte} (h : 64 < k.length) (m : List Byte) :
    hmacSha256 (digestBytes (sha256 k)) m = hmacSha256 k m := by
  simp only [hmacSha256, hmacInner, hmacK0_digest h]

/-! ## Obligations -/

/-- Settles O51: the CMD writes run the sequence. -/
theorem hmacCommandsComputeHmac : Obligations.HmacCommandsComputeHmac := by
  intro k m s rest hs hk hm hp
  obtain ⟨t, ht, hmac⟩ := execSeq_hmacCommands s hk hm
  have hterr : t.err = .none := hmac.err.trans hs
  have hrun := run_commandWrites ht hterr rest
  rw [hmacCommands_length, ← hp] at hrun
  exact ⟨_, hrun, rfl, hmac.replies, hterr, hmac.errcmd, hmac.phase0, hmac.phase1, hmac.inner, hmac.outer,
    hmac.KH ▸ s.withKey_settled_iff hk⟩

/-- Settles O52: the first HMAC leaves the key. -/
theorem keyIsReusableAfterHmac : Obligations.KeyIsReusableAfterHmac := by
  intro k m m' s hs hk hm hm'
  obtain ⟨t, ht, hmac⟩ := execSeq_hmacCommands s hk hm
  obtain ⟨u, hu, hmac'⟩ := execSeq_hstart_adds_hfinal (hmac.holdsKey (s.withKey_holdsKey hk)) hm'
  have hterr : t.err = .none := hmac.err.trans hs
  exact ⟨t, u, ht, hu, hterr, hmac'.err.trans hterr, hmac.outer, hmac'.outer⟩

/-- Settles O53: both keys have the same K0. -/
theorem longKeyEqualsItsDigest : Obligations.LongKeyEqualsItsDigest := by
  intro k m s _ hlong hk hm
  obtain ⟨t, ht, hmac⟩ := execSeq_hmacCommands s hk hm
  obtain ⟨u, hu, hmac'⟩ := execSeq_hmacCommands s (k := digestBytes (sha256 k)) (by rw [digestBytes_length]; decide) hm
  refine ⟨t, u, ht, hu, hmac.phase1, hmac'.phase1, ?_⟩
  rw [hmac.outer, hmac'.outer, hmacSha256_digest hlong]

end Sys2Proof.Machine
end

section
/-! SUPPORT. Errors (60_exceptions.md R203 to R208): which checks a command makes, what a CMD write that raises an error leaves, and
what a halted core still does. -/

namespace Sys2Proof.Machine

/-! ## The checks, command by command -/

/-- The commands that need an Accumulating context (60_exceptions.md R203). -/
theorem failsPrecond_iff (i : Instr) (s : State) : failsPrecond i s = true ↔
    (∃ c b, i = .add c b ∧ (s.H c).phase = .finalized) ∨ (∃ c, i = .final c ∧ (s.H c).phase = .finalized) ∨
    (∃ b, i = .kadd b ∧ s.KH.phase = .finalized) ∨
    (i = .hfinal ∧ (s.H0.phase = .finalized ∨ s.H1.phase = .finalized)) := by
  cases i <;> simp [failsPrecond]

/-- The commands that check the ceiling, each at the context that absorbs (60_exceptions.md R204). -/
theorem failsLength_iff (i : Instr) (s : State) : failsLength i s = true ↔
    (∃ c b, i = .add c b ∧ Config.lenLimit ≤ (s.H c).len.toNat + 1) ∨
    (∃ b, i = .kadd b ∧ Config.lenLimit ≤ s.KH.len.toNat + 1) ∨
    (i = .hfinal ∧ Config.lenLimit ≤ s.H1.len.toNat + 32) := by
  cases i <;> simp [failsLength, reachesLimit]

/-! ## Error entry -/

/-- A command on a running core that answers with an error has failed a check, and nothing but the latch has changed. -/
theorem exec_error {i : Instr} {s t : State} (hs : s.err = .none) (h : exec i s = .next t) (ht : t.err ≠ .none) :
    t = { s with err := t.err, errcmd := encode i } ∧
    (t.err = .precond ∧ failsPrecond i s = true ∨ t.err = .length ∧ failsLength i s = true) := by
  rcases exec_cases h with ⟨hp, rfl⟩ | ⟨-, hl, rfl⟩ | ⟨-, -, rfl⟩
  · exact ⟨rfl, .inl ⟨rfl, hp⟩⟩
  · exact ⟨rfl, .inr ⟨rfl, hl⟩⟩
  · exact absurd ((effect_err i s).trans hs) ht

/-- A command that answers PRECOND on a running core has failed its precondition. -/
theorem failsPrecond_of_exec {i : Instr} {s t : State} (hs : s.err = .none) (h : exec i s = .next t)
    (ht : t.err = .precond) : failsPrecond i s = true := by
  obtain ⟨-, ⟨-, hp⟩ | ⟨hlength, -⟩⟩ := exec_error hs h (by simp [ht])
  · exact hp
  · cases ht.symm.trans hlength

/-- A command that answers LENGTH on a running core has failed its ceiling check. -/
theorem failsLength_of_exec {i : Instr} {s t : State} (hs : s.err = .none) (h : exec i s = .next t)
    (ht : t.err = .length) : failsLength i s = true := by
  obtain ⟨-, ⟨hprecond, -⟩ | ⟨-, hl⟩⟩ := exec_error hs h (by simp [ht])
  · cases ht.symm.trans hprecond
  · exact hl

/-! ## Reads of a halted core -/

/-- STATUS stands at 0x004 alone (20_memory.md R51). -/
theorem eq_of_regAt_status {off : BitVec 8} (h : regAt off = some .status) : off = 0x04 := by
  unfold regAt at h
  split at h
  case h_2 hoff => exact BitVec.eq_of_toNat_eq hoff
  case h_11 => split_ifs at h <;> cases h
  all_goals cases h

/-- Of the registers only STATUS shows the error code (10_state.md R29). -/
theorem readReg_withErr (s : State) (e : ErrCode) {r : Reg} (h : r ≠ .status) :
    readReg { s with err := e } r = readReg s r := by
  cases r with
  | status => exact absurd rfl h
  | lenLo c => cases c <;> rfl
  | lenHi c => cases c <;> rfl
  | digest c i => cases c <;> rfl
  | _ => rfl

/-! ## Obligations -/

/-- Settles O34: the checks of the commands, and a PRECOND comes from a failed one. -/
theorem precondErrors : Obligations.PrecondErrors := by
  refine ⟨fun c b s h => exec_precond ?_, fun c s h => exec_precond ?_, fun b s h => exec_precond ?_,
    fun s h => exec_precond ?_, fun i s t hs h ht => (failsPrecond_iff i s).1 (failsPrecond_of_exec hs h ht)⟩
  · exact (failsPrecond_iff _ s).2 (.inl ⟨c, b, rfl, h⟩)
  · exact (failsPrecond_iff _ s).2 (.inr (.inl ⟨c, rfl, h⟩))
  · exact (failsPrecond_iff _ s).2 (.inr (.inr (.inl ⟨b, rfl, h⟩)))
  · exact (failsPrecond_iff _ s).2 (.inr (.inr (.inr ⟨rfl, h⟩)))

/-- Settles O35: with the contexts Accumulating the ceiling check is reached, and a LENGTH comes from a failed one. -/
theorem lengthErrors : Obligations.LengthErrors := by
  refine ⟨fun c b s hp hl => exec_length ?_ ?_, fun b s hp hl => exec_length ?_ ?_,
    fun s hp0 hp1 hl => exec_length ?_ ?_,
    fun i s t hs h ht => (failsLength_iff i s).1 (failsLength_of_exec hs h ht)⟩
  · exact (isFinalized_eq_false_iff _).2 hp
  · exact (failsLength_iff _ s).2 (.inl ⟨c, b, rfl, hl⟩)
  · exact (isFinalized_eq_false_iff _).2 hp
  · exact (failsLength_iff _ s).2 (.inr (.inl ⟨b, rfl, hl⟩))
  · exact Bool.or_eq_false_iff.2 ⟨(isFinalized_eq_false_iff _).2 hp0, (isFinalized_eq_false_iff _).2 hp1⟩
  · exact (failsLength_iff _ s).2 (.inr (.inr ⟨rfl, hl⟩))

/-- Settles O43: an illegal word is latched itself, and a command latches its encoding, which is the word that was written. -/
theorem errorEntryChangesOnlyTheLatch : Obligations.ErrorEntryChangesOnlyTheLatch := by
  intro s t w rest hp hs h ht
  rcases cmdWrite_next ((step_writeCmd hp).symm.trans h) with ⟨hhalted, -⟩ | ⟨-, rfl⟩ | ⟨-, i, hdec, hi⟩
  · exact absurd hs hhalted
  · exact ⟨rfl, .inl rfl⟩
  · obtain ⟨hlatch, hcode⟩ := exec_error (s := { s with pending := rest }) hs hi ht
    rw [encodeOfDecode w i hdec] at hlatch
    exact ⟨hlatch, .inr (hcode.imp And.left And.left)⟩

/-- Settles O9: a readable register has a value, and only STATUS depends on the error code. -/
theorem haltedCoreIgnoresCmdWrites : Obligations.HaltedCoreIgnoresCmdWrites := by
  refine ⟨fun s w rest hp hs => (step_writeCmd hp).trans (cmdWrite_halted w hs), fun s off rest hp _ hread => ?_⟩
  obtain ⟨r, v, hr, hv⟩ := readable_value hread
  refine ⟨v, step_read_value hp hr hv, fun hoff => ?_⟩
  have hstatus : r ≠ .status := fun e => hoff (eq_of_regAt_status (e ▸ hr))
  exact step_read_value (s := { s with err := .none }) hp hr ((readReg_withErr s .none hstatus).trans hv)

/-- Settles O10, by the kind of event: a read adds a reply, a write that does not fault is an ignored CMD write. -/
theorem onlyResetLeavesHalt : Obligations.OnlyResetLeavesHalt := by
  refine ⟨fun s t e rest hp hs he h => ?_, fun s v rest hp => ?_, fun s rest hp => ⟨_, step_reset hp, rfl, rfl⟩⟩
  · cases e with
    | read width off =>
      obtain ⟨v, rfl⟩ := hostRead_next ((step_read hp).symm.trans h)
      rfl
    | write width off v =>
      have hw := hostWrite_next ((step_write hp).symm.trans h)
      exact next_inj (hw.symm.trans (cmdWrite_halted v hs)) ▸ rfl
    | reset => exact absurd rfl he
  · rcases hp with hp | hp <;> exact step_write_readOnly hp (by decide)

end Sys2Proof.Machine
end

section
/-! SUPPORT. Reset (70_reset_and_hazards.md R230 to R232): it restores the reset values in any state, and on the reset state
INIT and KINIT change nothing, so a hash or an HMAC needs neither right after it. -/

namespace Sys2Proof.Machine

@[simp] theorem resetBlock_ctx (s : State) (n : CtxName) : (resetBlock s).ctx n = Context.reset := by cases n <;> rfl

/-- A context after reset is fresh already (10_state.md R43), so INIT changes nothing. -/
theorem exec_init_reset (c : Fin 2) : exec (.init c) State.reset = .next State.reset :=
  ctx_cases (p := fun c => exec (.init c) State.reset = .next State.reset) c rfl rfl

/-- KH after reset is fresh already, so KINIT changes nothing. -/
theorem exec_kinit_reset : exec .kinit State.reset = .next State.reset := rfl

/-- A command that changes nothing can be left out at the start of a sequence. -/
theorem execSeq_cons_of_unchanged {i : Instr} {s : State} (h : exec i s = .next s) (is : List Instr) :
    execSeq (i :: is) s = execSeq is s := by rw [execSeq, h]

/-! ## Obligations -/

/-- Settles O22: every context is reset alike, whatever the state was. -/
theorem resetEventRestoresState : Obligations.ResetEventRestoresState := fun s rest hp =>
  ⟨resetBlock { s with pending := rest }, step_reset hp, rfl, rfl, rfl, rfl,
    fun n => by rw [resetBlock_ctx]; exact ⟨rfl, rfl, rfl, rfl⟩⟩

/-- Settles O54: the runs are those of SHA and of HMAC, whose INIT or KINIT changes nothing on the reset state. -/
theorem resetLeavesContextsReady : Obligations.ResetLeavesContextsReady := by
  refine ⟨fun c m hm => ?_, fun k m hk hm => ?_⟩
  · have hrun := (execSeq_cons_of_unchanged (exec_init_reset c) _).symm.trans (execSeq_shaCommands c State.reset hm)
    refine ⟨_, hrun, State.setH_err _ _ _, ?_, ?_⟩
    · rw [State.setH_H, finalize_phase]
    · rw [State.setH_H, finalize_absorbBytes_freshen]
  · obtain ⟨t, ht, hmac⟩ := execSeq_hmacCommands State.reset hk hm
    have hrun := (execSeq_cons_of_unchanged exec_kinit_reset _).symm.trans ht
    exact ⟨t, hrun, hmac.err, hmac.phase1, hmac.outer⟩

end Sys2Proof.Machine
end

section
/-! SUPPORT. Stale bytes of the buffers and of the key block are never observed (10_state.md R23, R28, R42): registers and checks
read the same on states that agree but for them, and every effect keeps the agreement. Last, the idle step (60_exceptions.md R220)
and the parameter LEN_LIMIT (00_scope.md R9). -/

namespace Sys2Proof.Machine

/-! ## What agreeing contexts have in common -/

theorem Context.Agree.isFinalized_eq {C D : Context} (a : C.Agree D) : isFinalized C = isFinalized D := by
  rw [isFinalized, isFinalized, a.phase]

theorem Context.Agree.reachesLimit_eq {C D : Context} (a : C.Agree D) (limit n : Nat) :
    reachesLimit limit C n = reachesLimit limit D n := by
  rw [reachesLimit, reachesLimit, a.len]

theorem settleKey_agree {C D : Context} (a : C.Agree D) : (settleKey C).Agree (settleKey D) := by
  unfold settleKey
  rw [a.len, a.phase]
  split
  next => exact finalize_agree a
  next => exact a

theorem State.Agree.ctx {s t : State} (a : s.Agree t) (n : CtxName) : (s.ctx n).Agree (t.ctx n) := by
  cases n with
  | H0 => exact a.h0
  | H1 => exact a.h1
  | KH => exact a.kh

/-! ## The key block -/

/-- The bytes of two key blocks below `n` are the same (10_state.md R28). -/
def KeyAgree (n : Nat) (KB KB' : Block) : Prop := ∀ i : Fin 64, i.val < n → KB[i] = KB'[i]

/-- A key byte is stored at the length it is counted by, so the bytes below the new length are the old ones and it. -/
theorem storeKeyByte_agree {KB KB' : Block} {len len' : BitVec 64} (hlen : len = len') (a : KeyAgree len.toNat KB KB')
    (b : Byte) : KeyAgree (len + 1).toNat (storeKeyByte KB len b) (storeKeyByte KB' len' b) := by
  subst hlen
  intro i hi
  rw [storeKeyByte_getElem, storeKeyByte_getElem]
  split
  next => rfl
  next hne => exact a i (by bv_omega)

/-- K0 is read from the hash words of a long key and from the key bytes below the length of a short one. -/
theorem keyBlockK0_agree {C D : Context} {KB KB' : Block} (a : C.Agree D) (hKB : KeyAgree C.len.toNat KB KB') :
    keyBlockK0 C KB = keyBlockK0 D KB' := by
  by_cases hl : 64 < C.len.toNat
  · rw [keyBlockK0_of_long KB hl, keyBlockK0_of_long KB' (a.len ▸ hl), a.h]
  · have hs : C.len.toNat ≤ 64 := Nat.le_of_not_lt hl
    rw [keyBlockK0_eq_map_range KB hs, keyBlockK0_eq_map_range KB' (a.len ▸ hs), ← a.len]
    refine List.map_congr_left fun i hi => ?_
    split
    next hlt =>
      have hbyte := hKB ⟨i, List.mem_range.1 hi⟩ hlt
      simpa [List.mem_range.1 hi] using hbyte
    next => rfl

/-- HSTART derives the same K0 from states that agree. -/
theorem State.Agree.keyBlockK0_eq {s t : State} (a : s.Agree t) :
    keyBlockK0 (settleKey s.KH) s.KB = keyBlockK0 (settleKey t.KH) t.KB :=
  keyBlockK0_agree (settleKey_agree a.kh) (by rw [settleKey_len]; exact a.kb)

/-! ## Commands -/

theorem State.Agree.failsPrecond_eq {s t : State} (a : s.Agree t) (i : Instr) : failsPrecond i s = failsPrecond i t := by
  cases i with
  | init c => rfl
  | add c b => exact (a.ctxH c).isFinalized_eq
  | final c => exact (a.ctxH c).isFinalized_eq
  | kinit => rfl
  | kadd b => exact a.kh.isFinalized_eq
  | hstart => rfl
  | hfinal => exact congrArg₂ or a.h0.isFinalized_eq a.h1.isFinalized_eq

theorem State.Agree.failsLength_eq {s t : State} (a : s.Agree t) (i : Instr) : failsLength i s = failsLength i t := by
  cases i with
  | init c => rfl
  | add c b => exact (a.ctxH c).reachesLimit_eq _ _
  | final c => rfl
  | kinit => rfl
  | kadd b => exact a.kh.reachesLimit_eq _ _
  | hstart => rfl
  | hfinal => exact a.h1.reachesLimit_eq _ _

theorem effect_agree {s t : State} (a : s.Agree t) (i : Instr) : (effect i s).Agree (effect i t) := by
  cases i with
  | init c => exact a.setH c (freshen_agree _ _)
  | add c b => exact a.setH c (absorb_agree (a.ctxH c) b)
  | final c => exact a.setH c (finalize_agree (a.ctxH c))
  | kinit => exact { a with kh := freshen_agree _ _, kb := fun i hi => absurd hi (Nat.not_lt_zero i.val) }
  | kadd b => exact { a with kh := absorb_agree a.kh b, kb := storeKeyByte_agree a.kh.len a.kb b }
  | hstart =>
    simp only [effect, a.keyBlockK0_eq]
    exact { a with
      h0 := absorbBytes_agree (freshen_agree _ _) _
      h1 := absorbBytes_agree (freshen_agree _ _) _
      kh := settleKey_agree a.kh
      kb := by simpa using a.kb }
  | hfinal =>
    have h0 := finalize_agree a.h0
    simp only [effect, h0.h]
    exact { a with h0 := h0, h1 := finalize_agree (absorbBytes_agree a.h1 _) }

/-- Error entry keeps the agreement. -/
theorem State.Agree.latched {s t : State} (a : s.Agree t) (code : ErrCode) (w : Word) :
    State.Agree { s with err := code, errcmd := w } { t with err := code, errcmd := w } :=
  { a with err := rfl, errcmd := rfl }

theorem checked_agree {s t s' t' : State} (a : s.Agree t) (a' : s'.Agree t') (p l : Bool) (w : Word) :
    ResultAgree (checked p l w s s') (checked p l w t t') := by
  cases p with
  | true => exact a.latched .precond w
  | false =>
    cases l with
    | true => exact a.latched .length w
    | false => exact a'

theorem exec_agree {s t : State} (a : s.Agree t) (i : Instr) : ResultAgree (exec i s) (exec i t) := by
  rw [exec_eq_checked, exec_eq_checked, a.failsPrecond_eq i, a.failsLength_eq i]
  exact checked_agree a (effect_agree a i) _ _ _

/-! ## Host events -/

/-- The accesses still to come may change alike in both states. -/
theorem State.Agree.withPending {s t : State} (a : s.Agree t) (p : List HostEvent) :
    State.Agree { s with pending := p } { t with pending := p } :=
  { a with pending := rfl }

theorem resetBlock_agree {s t : State} (a : s.Agree t) : (resetBlock s).Agree (resetBlock t) :=
  ⟨.refl _, .refl _, .refl _, fun _ _ => rfl, rfl, rfl, a.pending, a.replies⟩

/-- No register shows a stale byte, so each reads the same, or has no value in either state. -/
theorem readReg_agree {s t : State} (a : s.Agree t) (r : Reg) : readReg s r = readReg t r := by
  cases r with
  | cmd => rfl
  | status => simp only [readReg, State.statusWord, a.h0.phase, a.h1.phase, a.kh.phase, a.err]
  | fill => simp only [readReg, State.fillWord, a.h0.fill, a.h1.fill, a.kh.fill]
  | errcmd => simp only [readReg, a.errcmd]
  | lenLo n => simp only [readReg, Context.lenLo, (a.ctx n).len]
  | lenHi n => simp only [readReg, Context.lenHi, (a.ctx n).len]
  | digest n i => simp only [readReg, (a.ctx n).isFinalized_eq, (a.ctx n).h]

theorem hostRead_agree {s t : State} (a : s.Agree t) (width : Width) (off : BitVec 8) :
    ResultAgree (hostRead width off s) (hostRead width off t) := by
  unfold hostRead
  split
  next =>
    cases regAt off with
    | none => exact rfl
    | some r =>
      simp only [readReg_agree a r]
      cases readReg t r with
      | error f => exact rfl
      | ok v => exact { a with replies := congrArg (· ++ [v]) a.replies }
  next => exact rfl

theorem cmdWrite_agree {s t : State} (a : s.Agree t) (w : Word) : ResultAgree (cmdWrite w s) (cmdWrite w t) := by
  by_cases hr : t.err = .none
  · rw [cmdWrite_running w (a.err.trans hr), cmdWrite_running w hr]
    cases decode w with
    | illegal r => exact a.latched .illegalCmd w
    | command i => exact exec_agree a i
  · rw [cmdWrite_halted w (a.err ▸ hr), cmdWrite_halted w hr]
    exact a

theorem hostWrite_agree {s t : State} (a : s.Agree t) (width : Width) (off : BitVec 8) (v : Word) :
    ResultAgree (hostWrite width off v s) (hostWrite width off v t) := by
  unfold hostWrite
  split
  next => exact cmdWrite_agree a v
  next => exact rfl

theorem hostEvent_agree {s t : State} (a : s.Agree t) (e : HostEvent) : ResultAgree (hostEvent e s) (hostEvent e t) := by
  cases e with
  | read width off => exact hostRead_agree a width off
  | write width off v => exact hostWrite_agree a width off v
  | reset => exact resetBlock_agree a

/-- The step takes the event at the head of the host's list. -/
theorem step_event {s : State} {e : HostEvent} {rest : List HostEvent} (h : s.pending = e :: rest) :
    step s = hostEvent e { s with pending := rest } := by simp only [step, nextEvent, h]

/-! ## Obligations -/

/-- Settles O42: both states take the same host event, and every event keeps the agreement. -/
theorem staleBytesAreNeverObserved : Obligations.StaleBytesAreNeverObserved := by
  intro s t a
  cases hp : t.pending with
  | nil =>
    rw [step_idle (a.pending.trans hp), step_idle hp]
    exact a
  | cons e rest =>
    rw [step_event (a.pending.trans hp), step_event hp]
    exact hostEvent_agree (a.withPending rest) e

/-- Settles O19, by the rule of the idle step. -/
theorem idleBlockHoldsState : Obligations.IdleBlockHoldsState := fun _ => step_idle

/-- Settles O47: below 2^45 bytes neither limit is reached. -/
theorem limitParameterIsImmaterialBelowCeiling : Obligations.LimitParameterIsImmaterialBelowCeiling := by
  intro limit C n hlimit _ hlen
  rw [reachesLimit_eq_false_iff.2 (hlen.trans_le hlimit), reachesLimit_eq_false hlen]

end Sys2Proof.Machine
end
